-- ==== Sys2Proof/Word.lean ====
section
/-! DEFINITION. The word types of the block: bytes of the buffers, 32-bit bus words, 16-bit length fields. -/

namespace Sys2Proof

/-- One byte of a buffer, or one character code of a text (R13). -/
abbrev Byte := BitVec 8

/-- One 32-bit bus word, the width of every register (R9, R18). -/
abbrev Word := BitVec 32

/-- The 16 stored bits of IN_LEN and OUT_LEN (R25, R26). -/
abbrev Half := BitVec 16

end Sys2Proof
end

