-- ==== Sys2Proof/Syntax.lean ====
section
/-! DEFINITION. The commands: the block's instructions, one constructor per row of spec/opcode_table.json (R57). -/

namespace Sys2Proof

/-- The five commands of R57. Commands have no operand fields and no immediates (R59). -/
inductive Instr where
  /-- OP 0: no operation (R70). -/
  | nop
  /-- OP 1: bytes to base58 text (R88). -/
  | encode
  /-- OP 2: base58 text to bytes (R89). -/
  | decode
  /-- OP 3: append the checksum, then encode (R97). -/
  | cencode
  /-- OP 4: decode, then verify and strip the checksum (R98). -/
  | cdecode
deriving DecidableEq, Repr

end Sys2Proof
end

