-- ==== Sys2Proof/WellFormed.lean ====
section
/-! DEFINITION. Which commands exist on a block: the column "needs CK_PRESENT" of R57. -/

namespace Sys2Proof

/-- Whether a command exists only when the checksum validator is built (R57). -/
def Instr.needsChecksum : Instr → Bool
  | .nop => false
  | .encode => false
  | .decode => false
  | .cencode => true
  | .cdecode => true

/-- The commands a block with CK_PRESENT = `ck` has: CENCODE and CDECODE need the checksum validator. -/
def Instr.wf (ck : Bool) (i : Instr) : Bool := !i.needsChecksum || ck

end Sys2Proof
end

