-- ==== Sys2Proof/Decode.lean ====
section
/-! DEFINITION. Command decoding, total on every 32-bit word and rejecting by name (R56, R58, R60), then the
encoder (R57), then the opcode table's view of the decoder. -/

namespace Sys2Proof

/-- Why a word is no command (R60). Every one of these completes with ILLEGAL_COMMAND (R66). -/
inductive IllegalWord where
  /-- A bit of w[31:3] is 1. -/
  | reservedBits
  /-- OP is 5, 6 or 7. -/
  | reservedOp
  /-- OP is 3 or 4 and CK_PRESENT is 0. -/
  | noChecksumUnit
deriving DecidableEq, Repr

/-- The field OP = w[2:0] of the format CMD32 (R56). -/
def opField (w : Word) : BitVec 3 := w.extractLsb' 0 3

/-- The field RSVD = w[31:3] of the format CMD32 (R56). -/
def rsvdField (w : Word) : BitVec 29 := w.extractLsb' 3 29

/-- The command that an OP value selects, whatever the options (R57), or none for 5, 6 and 7. -/
def opCommand (op : BitVec 3) : Option Instr :=
  if op = 0 then some .nop
  else if op = 1 then some .encode
  else if op = 2 then some .decode
  else if op = 3 then some .cencode
  else if op = 4 then some .cdecode
  else none

/-- `decodeCmd` of R58, with ILLEGAL split by its reason (R60). -/
def decodeCmd (ck : Bool) (w : Word) : Except IllegalWord Instr :=
  if rsvdField w ≠ 0 then .error .reservedBits
  else match opCommand (opField w) with
    | none => .error .reservedOp
    | some i => if i.wf ck then .ok i else .error .noChecksumUnit

/-- OP of each command (R57). -/
def opOf : Instr → BitVec 3
  | .nop => 0
  | .encode => 1
  | .decode => 2
  | .cencode => 3
  | .cdecode => 4

/-- The one word of each command: OP in bits [2:0], zeros in bits [31:3] (R56, R58). -/
def encode (i : Instr) : Word := (0#29) ++ opOf i

/-- The decoder on an opcode-table row: the table's words are whole 32-bit words, and its conditions
"CK_PRESENT = 1" are met (log entry 11). -/
def decodeTableWord (nbits w : Nat) : Option Instr :=
  if nbits ≤ 32 then
    match decodeCmd true (BitVec.ofNat 32 (w % 2 ^ nbits)) with
    | .ok i => some i
    | .error _ => none
  else none

end Sys2Proof
end

