-- ==== Sys2Proof/Config.lean ====
section
/-! DEFINITION. The parameters of rule R7, as plain data that one state carries unchanged (log entry 1), and
the values the spec leaves free, each an opaque constant with no body. -/

namespace Sys2Proof

/-- The operations the engine computes: the values of ENG_OP (R33). They stand here because LATENCY may depend on
the operation. -/
inductive Operation where
  | encode
  | decode
  | cencode
  | cdecode
deriving DecidableEq, Repr

/-- What HASH returns: exactly 32 bytes, index 0 first (R90, D31). -/
abbrev Digest := Vector Byte 32

/-- What is connected to the HASH port (R90, R116 item 2), named by plain data (log entry 3).
`table` is a digest function given by finitely many argument and result pairs and one digest for every other
argument: the stub HZERO of 95_test_vectors.md is the empty table with 32 zero bytes.
`injected` is an arbitrary digest function of which nothing is known. -/
inductive HashPort where
  | table (entries : List (List Byte × Digest)) (other : Digest)
  | injected (id : Nat)
deriving DecidableEq, Repr

/-- The parameters BASE, IN_CAP, OUT_CAP, CK_PRESENT and HASH of R7.
LATENCY, the sixth, is drawn per accepted command (`Machine.State.latencies`, `Config.latency`). -/
structure Config where
  /-- BASE: the bus address of device offset 0x0000. -/
  base : Nat
  /-- IN_CAP: the capacity of IN_BUF in bytes. -/
  inCap : Nat
  /-- OUT_CAP: the capacity of OUT_BUF in bytes. -/
  outCap : Nat
  /-- CK_PRESENT: whether the checksum validator is built. -/
  ckPresent : Bool
  /-- HASH: the digest function connected to the port. -/
  hash : HashPort
deriving DecidableEq, Repr

/-- FREE (log entry 3): the digest functions about which nothing is known (R90, U6). -/
opaque Config.injectedHash : Nat → List Byte → Digest

/-- FREE (log entry 4): the value of the n-th UNSPEC buffer lane drawn (R41, R43, R46, U1, U2). -/
opaque Config.unspecByte : Nat → Byte

/-- FREE (log entry 5): the read data of an access that gets BUS_ERROR, per draw (R39, U4). -/
opaque Config.unspecWord : Nat → Word

/-- FREE (log entry 6): LATENCY of a command, any finite number of host steps (R7, R69, U5). It may depend on the
draw, on the operation and on its input: IN_LEN and the bytes IN_BUF holds. -/
opaque Config.latency : Nat → Operation → Nat → List (Nat × Byte) → Nat

/-- The reference values of R7's table, with HASH left free (DESIGN CHOICE, log entry 2). -/
def Config.reference : Config :=
  { base := 0x00000000, inCap := 64, outCap := 96, ckPresent := true, hash := .injected 0 }

end Sys2Proof
end

