-- ==== Sys2Proof/Machine/State.lean ====
section
/-! DEFINITION. The state of the block as plain data (R15 to R37), the host side of its bus port, the reasons a
step can stop, and the state after reset (R37). -/

namespace Sys2Proof.Machine

/-- ENG and ENG_OP in one field (R33; log entry 7): ENG_OP exists only while ENG = BUSY.
`wait` is the model's own: the host steps still to come before completion (R7 LATENCY; log entry 6). -/
inductive Engine where
  | idle
  | busy (op : Operation) (wait : Nat)
deriving DecidableEq, Repr

/-- The errors a command can report (R99). -/
inductive CommandError where
  | invalidCharacter
  | tooShort
  | checksumMismatch
  | illegalCommand
  | length
deriving DecidableEq, Repr

/-- What STATUS.ERR holds (R23): OK or one of the five errors of R99; the codes 6 to 15 do not exist (U14). -/
inductive ResultCode where
  | ok
  | failed (e : CommandError)
deriving DecidableEq, Repr

/-- A byte buffer: (index, byte) pairs in one canonical form, indexes strictly rising (`Memory.wf`).
An index that is not listed holds no known byte: for IN_BUF that is WRITTEN[i] = 0 (R35; log entry 8), for
OUT_BUF it is UNSPEC (R65). -/
abbrev Memory := List Host.Cell

/-- The canonical form: indexes strictly rising. An unlisted index has no value, so no entry can equal it. -/
abbrev Memory.wf (m : Memory) : Prop := m.Pairwise (fun c d => c.1 < d.1)

/-- The width of a bus access (R39). -/
inductive Width where
  | w8
  | w16
  | w32
  | w64
deriving DecidableEq, Repr

/-- The direction of a bus access, with the data of a write. Only a 32-bit write's data is ever used (R39). -/
inductive Direction where
  | read
  | write (v : Word)
deriving DecidableEq, Repr

/-- One host bus access at an absolute bus address (R12, R39). -/
structure Access where
  addr : Nat
  width : Width
  dir : Direction
deriving DecidableEq, Repr

/-- What the outside world does to the block next. -/
inductive Event where
  /-- One bus access (R63). -/
  | access (a : Access)
  /-- The host line POLL (R62): read the word at BASE + off until (data AND mask) = want. -/
  | poll (off : BitVec 14) (mask want : Word)
  /-- The reset input, a step of its own between two host accesses (R113). -/
  | reset
deriving DecidableEq, Repr

/-- What the bus answered to one access. -/
inductive Response where
  /-- A read that the block honoured, with its data. -/
  | data (v : Word)
  /-- A write that met R39. A write dropped by the block answers the same (R24, R42, R64). -/
  | written
  /-- BUS_ERROR (R39), with the data of a read. -/
  | busError (v : Option Word)
  /-- The address is outside the window: the block does not decode it (R48). -/
  | undecoded
deriving DecidableEq, Repr

/-- The state. CAPS, OUTCAP and the alphabet ROM are constants computed from `cfg` or fixed (R27, R28, R31);
CMD is a port and holds nothing (R19); STATUS.BUSY is `eng` (R33). -/
structure State where
  /-- The parameters of R7: arguments of the step relation, which no step changes (log entry 1). -/
  cfg : Config
  /-- ENG, ENG_OP and STATUS.BUSY (R21, R33). -/
  eng : Engine
  /-- STATUS.DONE (R22). -/
  done : Bool
  /-- STATUS.ERR (R23). -/
  err : ResultCode
  /-- STATUS.WERR (R24). -/
  werr : Bool
  /-- IN_LEN[15:0] (R25). -/
  inLen : Half
  /-- OUT_LEN[15:0] (R26). -/
  outLen : Half
  /-- IN_BUF with its WRITTEN flags (R29, R35). -/
  inBuf : Memory
  /-- OUT_BUF (R30). -/
  outBuf : Memory
  /-- The model's own: the accesses, polls and resets that will arrive at the port, in arrival order (R50, R51). -/
  port : List Event
  /-- The model's own: the bus responses so far, newest first (the host's reads of R125). -/
  log : List Response
  /-- The model's own: LATENCY of the next accepted commands where it is prescribed; past its end it is free
  (`Config.latency`; log entry 6). -/
  latencies : List Nat
  /-- The model's own: how many free values have been drawn (log entries 4 to 6). -/
  draws : Nat
deriving DecidableEq, Repr

/-- The faults of the block's own steps. -/
inductive Fault where
  /-- Raised by the engine's completion when some WRITTEN[i] = 0 with i < IN_LEN (R68, R120, U3). SAFE: the
  hardware would compute on an unknown byte, and the spec tells the model to stop there. -/
  | unwrittenInput
deriving DecidableEq, Repr

/-- The refusals. -/
inductive Refusal where
  /-- Raised by an arm of `exec` that has no meaning yet; no arm is left so. SAFE: nothing is claimed. -/
  | notModelled (mnemonic : String)
  /-- Raised by `step` when the parameters break a constraint of R7 (U9, D8). SAFE: nothing is claimed about a
  block the spec excludes. -/
  | illegalConfiguration
deriving DecidableEq, Repr

/-- The state right after reset (R37, R113 to R115), with an empty port: the block executes no code of its own,
so a host program is placed in `port` from outside (log entry 10). The parameters are the reference values
(log entry 2). -/
def State.reset : State :=
  { cfg := Config.reference
    eng := .idle
    done := false
    err := .ok
    werr := false
    inLen := 0
    outLen := 0
    inBuf := []
    outBuf := []
    port := []
    log := []
    latencies := []
    draws := 0 }

end Sys2Proof.Machine
end

