-- ==== Sys2Proof/Machine/Flags.lean ====
section
/-! DEFINITION. The fields of STATUS: what reads them, what sets them and what clears them (R20 to R24, R36). -/

namespace Sys2Proof.Machine

/-- STATUS.BUSY: 1 exactly when ENG = BUSY (R21, R33). -/
def State.busy (s : State) : Bool :=
  match s.eng with
  | .idle => false
  | .busy _ _ => true

/-- `code(e)`: the STATUS.ERR value of an error (R99). -/
def errorCode : CommandError → BitVec 4
  | .invalidCharacter => 1
  | .tooShort => 2
  | .checksumMismatch => 3
  | .illegalCommand => 4
  | .length => 5

/-- The four bits of STATUS.ERR (R23, R99). -/
def resultBits : ResultCode → BitVec 4
  | .ok => 0
  | .failed e => errorCode e

/-- The word a read of STATUS returns: WERR in bit 8, ERR in bits 7 to 4, DONE in bit 1, BUSY in bit 0, and 0 in
every reserved bit (R20). -/
def statusWord (s : State) : Word :=
  (0#23) ++ BitVec.ofBool s.werr ++ resultBits s.err ++ (0#2) ++ BitVec.ofBool s.done ++ BitVec.ofBool s.busy

/-- A write of `w` to STATUS: bits 1 and 8 are write-1-to-clear, and nothing else changes, whatever BUSY is (R20). -/
def writeStatus (w : Word) (s : State) : State :=
  { s with
    done := s.done && !w.getLsbD 1
    werr := s.werr && !w.getLsbD 8 }

/-- A write dropped because BUSY is 1 sets the sticky WERR and does nothing else (R24, R118). -/
def dropWrite (s : State) : State := { s with werr := true }

/-- The status of a command that has ended, by completion or at once: DONE is set, ERR takes the result code and
the engine is idle, so that BUSY is 0 (R66, R68). -/
def flagsEnded (c : ResultCode) (s : State) : State :=
  { s with done := true, err := c, eng := .idle }

/-- The status of an accepted command: BUSY is set with the latched operation, DONE and ERR are cleared and WERR
is kept (R65). `wait` is the LATENCY of this command. -/
def flagsAccepted (op : Operation) (wait : Nat) (s : State) : State :=
  { s with done := false, err := .ok, eng := .busy op wait }

end Sys2Proof.Machine
end

