-- ==== Sys2Proof/Machine/Ops.lean ====
section
/-! DEFINITION. The named operations: buffers as memories, byte packing of bus words, free draws, and the steps
that every command shares: acceptance, immediate completion with an error, and reset (R40, R64 to R66, R113). -/

namespace Sys2Proof.Machine

/-- The byte a memory lists at index `a`. -/
def Memory.read : Memory → Nat → Option Byte
  | [], _ => none
  | (i, b) :: m, a => if a = i then some b else Memory.read m a

/-- Stores byte `b` at index `a`, keeping the indexes strictly rising. -/
def Memory.write : Memory → Nat → Byte → Memory
  | [], a, b => [(a, b)]
  | (i, c) :: m, a, b =>
    if a < i then (a, b) :: (i, c) :: m
    else if a = i then (a, b) :: m
    else (i, c) :: Memory.write m a b

/-- The `n` bytes at the indexes from `a` on, or none where one of them is not listed. -/
def Memory.readBytes (m : Memory) (a : Nat) : Nat → Option (List Byte)
  | 0 => some []
  | n + 1 =>
    match Memory.read m a, Memory.readBytes m (a + 1) n with
    | some b, some bs => some (b :: bs)
    | _, _ => none

/-- Stores a byte sequence at the indexes from `a` on. -/
def Memory.writeBytes (m : Memory) (a : Nat) : List Byte → Memory
  | [] => m
  | b :: bs => Memory.writeBytes (Memory.write m a b) (a + 1) bs

/-- Four byte lanes packed into a bus word, lane k in bits [8k+7:8k] (R40). -/
def packLanes (lane : Nat → Byte) : Word := lane 3 ++ lane 2 ++ lane 1 ++ lane 0

/-- Lane k of a bus word: bits [8k+7:8k] (R40). -/
def laneOf (v : Word) (k : Nat) : Byte := v.extractLsb' (8 * k) 8

/-- Counts `n` free values as drawn. -/
def spend (n : Nat) (s : State) : State := { s with draws := s.draws + n }

/-- LATENCY of a command accepted now: the next prescribed one, or a free value (R7, R69). -/
def nextLatency (op : Operation) (s : State) : Nat :=
  match s.latencies with
  | [] => Config.latency s.draws op s.inLen.toNat s.inBuf
  | n :: _ => n

/-- `accept(c)` of R65: BUSY, DONE, ERR and OUT_LEN, the latched operation, and OUT_BUF all UNSPEC. -/
def accept (op : Operation) (s : State) : State :=
  flagsAccepted op (nextLatency op s)
    { s with outLen := 0, outBuf := [], latencies := s.latencies.tail, draws := s.draws + 1 }

/-- `completeNow(e)` of R66: an acceptance error ends the command at once, with OUT_LEN = 0 and OUT_BUF not
written. This is the block's only error entry: it has no traps (R103). -/
def completeNow (e : CommandError) (s : State) : State :=
  flagsEnded (.failed e) { s with outLen := 0 }

/-- A CMD write whose word is ILLEGAL (R64): dropped while BUSY, else completed at once. -/
def issueIllegal (s : State) : State :=
  if s.busy then dropWrite s else completeNow .illegalCommand s

/-- A CMD write of an operation the block has (R64): dropped while BUSY, LENGTH when IN_LEN > IN_CAP, else
accepted. -/
def issue (op : Operation) (s : State) : State :=
  if s.busy then dropWrite s
  else if s.cfg.inCap < s.inLen.toNat then completeNow .length s
  else accept op s

/-- A CMD write of an operation that exists only when CK_PRESENT = 1 (R58, R64). -/
def issueChecked (op : Operation) (s : State) : State :=
  if s.cfg.ckPresent then issue op s else issueIllegal s

/-- The reset input (R113): every piece of the block's state takes its value of R37, an accepted command is
abandoned, and the parameters and the host's side stay. -/
def resetBlock (s : State) : State :=
  { State.reset with
    cfg := s.cfg, port := s.port, log := s.log, latencies := s.latencies, draws := s.draws }

end Sys2Proof.Machine
end

