-- ==== Sys2Proof/Machine/Checked.lean ====
section
/-! DEFINITION. The meanings of CENCODE and CDECODE: what a CMD write of each word does (R64, R97, R98), with and
without the checksum validator. The result is the engine's, published by `complete` (R68). -/

namespace Sys2Proof.Machine

/-- CENCODE: latches the operation chkEncode (R97); ILLEGAL_COMMAND when CK_PRESENT = 0 (R60). -/
def execCencode (s : State) : Host.Outcome State Fault Refusal := .next (issueChecked .cencode s)

/-- CDECODE: latches the operation chkDecode (R98); ILLEGAL_COMMAND when CK_PRESENT = 0 (R60). -/
def execCdecode (s : State) : Host.Outcome State Fault Refusal := .next (issueChecked .cdecode s)

end Sys2Proof.Machine
end

