-- ==== Sys2Proof/Machine/Control.lean ====
section
/-! DEFINITION. The meaning of the command NOP: what a CMD write of its word does (R64, R70). -/

namespace Sys2Proof.Machine

/-- NOP: nothing changes while BUSY = 0, and the write is dropped while BUSY = 1 (R70). -/
def execNop (s : State) : Host.Outcome State Fault Refusal :=
  .next (if s.busy then dropWrite s else s)

end Sys2Proof.Machine
end

