-- ==== Sys2Proof/Machine/Convert.lean ====
section
/-! DEFINITION. The meanings of ENCODE and DECODE: what a CMD write of each word does (R64, R88, R89). The result is
the engine's, published by `complete` (R68). -/

namespace Sys2Proof.Machine

/-- ENCODE: latches the operation b58encode over IN_BUF[0 .. IN_LEN) (R88). -/
def execEncode (s : State) : Host.Outcome State Fault Refusal := .next (issue .encode s)

/-- DECODE: latches the operation b58decode over IN_BUF[0 .. IN_LEN) (R89). -/
def execDecode (s : State) : Host.Outcome State Fault Refusal := .next (issue .decode s)

end Sys2Proof.Machine
end

