-- ==== Sys2Proof/Machine/Base58.lean ====
section
/-! DEFINITION. The base converter: the alphabet ROM (R31, R32), minimal digit sequences and their values (R75 to
R78), the length bounds (R80, R81) and the two conversions (R82, R83). -/

namespace Sys2Proof.Machine

/-- The alphabet ROM ALPHA[0 .. 58): the codes of 1 to 9, then A to Z without I and O, then a to z without l (R31). -/
def alphabet : List Byte :=
  [0x31#8, 0x32#8, 0x33#8, 0x34#8, 0x35#8, 0x36#8, 0x37#8, 0x38#8, 0x39#8] ++
  [0x41#8, 0x42#8, 0x43#8, 0x44#8, 0x45#8, 0x46#8, 0x47#8, 0x48#8, 0x4A#8, 0x4B#8, 0x4C#8, 0x4D#8] ++
  [0x4E#8, 0x50#8, 0x51#8, 0x52#8, 0x53#8, 0x54#8, 0x55#8, 0x56#8, 0x57#8, 0x58#8, 0x59#8, 0x5A#8] ++
  [0x61#8, 0x62#8, 0x63#8, 0x64#8, 0x65#8, 0x66#8, 0x67#8, 0x68#8, 0x69#8, 0x6A#8, 0x6B#8, 0x6D#8] ++
  [0x6E#8, 0x6F#8, 0x70#8, 0x71#8, 0x72#8, 0x73#8, 0x74#8, 0x75#8, 0x76#8, 0x77#8, 0x78#8, 0x79#8, 0x7A#8]

/-- ALPHA[d], for a digit d in [0, 58) (R10, R31). -/
def alpha (d : Fin 58) : Byte := alphabet.get ⟨d.val, d.isLt⟩

/-- The zero-character ALPHA[0] = '1' (R14, R31). -/
def zeroChar : Byte := alpha 0

/-- `digitOf(c)`: the digit d with ALPHA[d] = c, or none (R32). -/
def digitOf (c : Byte) : Option (Fin 58) := (List.finRange 58).find? fun d => alpha d == c

/-- A valid text: every code is in the alphabet (R14). -/
def validText (t : List Byte) : Bool := t.all fun c => (digitOf c).isSome

/-- `lz(s, x)`: the number of leading elements equal to x (R75). -/
def lz (s : List Byte) (x : Byte) : Nat := (s.takeWhile (· == x)).length

/-- `val256(b)`: most-significant byte first (R76). -/
def val256 (b : List Byte) : Nat := b.foldl (fun v x => v * 256 + x.toNat) 0

/-- `val58(d)`: the fold of R76, most-significant digit first. -/
def val58 (d : List (Fin 58)) : Nat := d.foldl (fun v x => v * 58 + x.val) 0

/-- The loop of R77: while v > 0, put v mod base in front and divide. The fuel is never used up
(`minDigits_eq_digits`). -/
def digitLoop (base : Nat) : Nat → Nat → List Nat → List Nat
  | 0, _, acc => acc
  | fuel + 1, v, acc => if v = 0 then acc else digitLoop base fuel (v / base) (v % base :: acc)

/-- The minimal digit sequence of v in a base, most significant first (R77, R78). -/
def minDigits (base v : Nat) : List Nat := digitLoop base v v []

/-- `digits58(v)` (R77). -/
def digits58 (v : Nat) : List (Fin 58) := (minDigits 58 v).map (Fin.ofNat 58)

/-- `bytes256(v)` (R78). -/
def bytes256 (v : Nat) : List Byte := (minDigits 256 v).map (BitVec.ofNat 8)

/-- The least k with p * base^k >= target, as a count of multiplications; the fuel bounds the search. -/
def leastPower (base target : Nat) : Nat → Nat → Nat
  | 0, _ => 0
  | fuel + 1, p => if target ≤ p then 0 else leastPower base target fuel (p * base) + 1

/-- `MAXENC(n)`: the least k with 58^k >= 256^n (R80). It is at most 2n, since 58^2 >= 256. -/
def maxEnc (n : Nat) : Nat := leastPower 58 (256 ^ n) (2 * n) 1

/-- `MAXDEC(m)`: the least j with 256^j >= 58^m (R81). It is at most m. -/
def maxDec (m : Nat) : Nat := leastPower 256 (58 ^ m) m 1

/-- `b58encode(b)`; it never fails (R82). -/
def b58encode (b : List Byte) : List Byte :=
  let z := lz b 0
  List.replicate z zeroChar ++ (digits58 (val256 (b.drop z))).map alpha

/-- `b58decode(t)`: every character is checked first, then the value is rebuilt (R83). -/
def b58decode (t : List Byte) : Except CommandError (List Byte) :=
  if validText t then
    let z := lz t zeroChar
    .ok (List.replicate z 0 ++ bytes256 (val58 ((t.drop z).filterMap digitOf)))
  else .error .invalidCharacter

end Sys2Proof.Machine
end

