-- ==== Sys2Proof/Machine/Checksum.lean ====
section
/-! DEFINITION. The checksum codec: the HASH port (R90), the checksum (R91) and the two checked conversions (R92, R93). -/

namespace Sys2Proof.Machine

/-- HASH: the function the parameter names (R90). -/
def hashOf : HashPort → List Byte → Digest
  | .table entries other, p => (entries.lookup p).getD other
  | .injected id, p => Config.injectedHash id p

/-- `checksum(p)`: the first four bytes of HASH(HASH(p)), lowest index first (R91). -/
def checksum (hash : List Byte → Digest) (p : List Byte) : List Byte :=
  (hash (hash p).toList).toList.take 4

/-- `chkEncode(p)`; it never fails (R92). -/
def chkEncode (hash : List Byte → Digest) (p : List Byte) : List Byte := b58encode (p ++ checksum hash p)

/-- `chkDecode(t)`: the checks in the order of R93, the first failure deciding the error (R93, R102). -/
def chkDecode (hash : List Byte → Digest) (t : List Byte) : Except CommandError (List Byte) :=
  match b58decode t with
  | .error e => .error e
  | .ok raw =>
    if raw.length < 4 then .error .tooShort
    else
      let payload := raw.take (raw.length - 4)
      if checksum hash payload ≠ raw.drop (raw.length - 4) then .error .checksumMismatch
      else .ok payload

end Sys2Proof.Machine
end

