-- ==== Sys2Proof/Machine/Operands.lean ====
section
/-! DEFINITION. The implicit operands of every command (R59): the input IN_BUF[0 .. IN_LEN), the output
OUT_BUF[0 .. OUT_LEN), and the buffer lanes and length fields a bus access reaches (R25, R40 to R43). -/

namespace Sys2Proof.Machine

/-- The input IN_BUF[0 .. IN_LEN), or none where some WRITTEN[i] = 0 (R59, R68). -/
def inputBytes (s : State) : Option (List Byte) := Memory.readBytes s.inBuf 0 s.inLen.toNat

/-- The published output OUT_BUF[0 .. OUT_LEN) (R74). -/
def outputBytes (s : State) : Option (List Byte) := Memory.readBytes s.outBuf 0 s.outLen.toNat

/-- Publishes a result: OUT_BUF[0 .. len(out)) and OUT_LEN (R68). -/
def publish (out : List Byte) (s : State) : State :=
  { s with outBuf := Memory.writeBytes s.outBuf 0 out, outLen := BitVec.ofNat 16 out.length }

/-- What a bus read finds in IN_BUF byte `i` (R41); `d` numbers the free draw of an unwritten byte (U2). -/
def inLane (s : State) (i d : Nat) : Byte :=
  if i < s.cfg.inCap then (Memory.read s.inBuf i).getD (Config.unspecByte d) else 0

/-- What a bus read finds in OUT_BUF byte `i` (R43); `d` numbers the free draw of an UNSPEC byte (U1). -/
def outLane (s : State) (i d : Nat) : Byte :=
  if i < s.cfg.outCap then
    if i < s.outLen.toNat then (Memory.read s.outBuf i).getD (Config.unspecByte d)
    else Config.unspecByte d
  else 0

/-- The word a read of IN_BUF window word `w` returns (R41). -/
def readInWord (w : Nat) (s : State) : Word := packLanes fun k => inLane s (4 * w + k) (s.draws + k)

/-- The word a read of OUT_BUF window word `w` returns (R43). -/
def readOutWord (w : Nat) (s : State) : Word := packLanes fun k => outLane s (4 * w + k) (s.draws + k)

/-- Stores one lane of a window write: a lane at or beyond IN_CAP is discarded (R42). -/
def storeLane (i : Nat) (b : Byte) (s : State) : State :=
  if i < s.cfg.inCap then { s with inBuf := Memory.write s.inBuf i b } else s

/-- A write of `v` to IN_BUF window word `w` (R42). -/
def writeInWord (w : Nat) (v : Word) (s : State) : State :=
  if s.busy then dropWrite s
  else
    storeLane (4 * w + 3) (laneOf v 3)
      (storeLane (4 * w + 2) (laneOf v 2)
        (storeLane (4 * w + 1) (laneOf v 1)
          (storeLane (4 * w) (laneOf v 0) s)))

/-- A write of `v` to IN_LEN: bits [15:0] are stored, and bits [31:16] are ignored (R25). -/
def writeInLen (v : Word) (s : State) : State :=
  if s.busy then dropWrite s else { s with inLen := v.extractLsb' 0 16 }

/-- The word a read of CAPS returns: IN_CAP in bits [15:0] and CK_PRESENT in bit 16 (R27). -/
def capsWord (c : Config) : Word := (0#15) ++ BitVec.ofBool c.ckPresent ++ BitVec.ofNat 16 c.inCap

/-- The word a read of OUTCAP returns: OUT_CAP in bits [15:0] (R28). -/
def outCapWord (c : Config) : Word := (0#16) ++ BitVec.ofNat 16 c.outCap

end Sys2Proof.Machine
end

