-- ==== Sys2Proof/Machine/Engine.lean ====
section
/-! DEFINITION. The engine agent: what each latched operation computes (R67), its one step, completion (R68), when
that step is taken (R69), and the configurations the spec allows (R7). -/

namespace Sys2Proof.Machine

/-- F(ENG_OP): the function each operation computes of its input (R67). -/
def compute (op : Operation) (hash : List Byte → Digest) (inp : List Byte) :
    Except CommandError (List Byte) :=
  match op with
  | .encode => .ok (b58encode inp)
  | .decode => b58decode inp
  | .cencode => .ok (chkEncode hash inp)
  | .cdecode => chkDecode hash inp

/-- Publishes a computed result (R68): the output, its length and ERR = 0, or OUT_LEN = 0 and the error's code. -/
def publishResult (r : Except CommandError (List Byte)) (s : State) : State :=
  match r with
  | .ok out => flagsEnded .ok (publish out s)
  | .error e => flagsEnded (.failed e) { s with outLen := 0 }

/-- Completion, one indivisible state change (R68). It faults when some input byte was never written (R120); in a
state with ENG = IDLE it is not enabled and changes nothing. -/
def complete (s : State) : Host.Outcome State Fault Refusal :=
  match s.eng with
  | .idle => .next s
  | .busy op _ =>
    match inputBytes s with
    | none => .fault .unwrittenInput
    | some inp => .next (publishResult (compute op (hashOf s.cfg.hash) inp) s)

/-- Whether the engine moves now: ENG = BUSY, and the command's LATENCY is over or no host access is left to come
(R69: completion follows after finitely many host steps). -/
def completionDue (s : State) : Bool :=
  match s.eng with
  | .idle => false
  | .busy _ wait => wait == 0 || s.port.isEmpty

/-- The constraints of R7 on the parameters (U9). -/
def configLegal (c : Config) : Bool :=
  c.base % 0x4000 == 0 &&
  (Nat.ble 1 c.inCap && Nat.ble c.inCap 4096) &&
  (Nat.ble (maxEnc (c.inCap + 4 * c.ckPresent.toNat)) c.outCap && Nat.ble c.outCap 8192)

end Sys2Proof.Machine
end

