-- ==== Sys2Proof/Machine/Bus.lean ====
section
/-! DEFINITION. The host agent: the register map (R18), what each bus access does (R19 to R28, R38 to R49), polling
(R62), reset (R113), and one turn of the machine (R50, R63, R69). -/

namespace Sys2Proof.Machine

/-- What stands at a word of the window (R18). `w` is the window word of a buffer. -/
inductive Place where
  | cmd
  | status
  | inLen
  | outLen
  | caps
  | outCap
  | reserved
  | inBuf (w : Nat)
  | outBuf (w : Nat)
deriving DecidableEq, Repr

/-- The register map, from an offset below 0x4000 that is a multiple of 4 (R18). -/
def placeOf (off : Nat) : Place :=
  if off = 0x0000 then .cmd
  else if off = 0x0004 then .status
  else if off = 0x0008 then .inLen
  else if off = 0x000C then .outLen
  else if off = 0x0010 then .caps
  else if off = 0x0014 then .outCap
  else if off < 0x1000 then .reserved
  else if off < 0x2000 then .inBuf ((off - 0x1000) / 4)
  else .outBuf ((off - 0x2000) / 4)

/-- The offset of a bus address inside the 16 KiB window at BASE, or none outside it (R38, R48). -/
def offsetOf (c : Config) (addr : Nat) : Option Nat :=
  if c.base ≤ addr ∧ addr < c.base + 0x4000 then some (addr - c.base) else none

/-- The word a read of each place returns (R18 to R20, R25 to R28, R41, R43). -/
def readPlace (p : Place) (s : State) : Word :=
  match p with
  | .cmd => 0
  | .status => statusWord s
  | .inLen => (0#16) ++ s.inLen
  | .outLen => (0#16) ++ s.outLen
  | .caps => capsWord s.cfg
  | .outCap => outCapWord s.cfg
  | .reserved => 0
  | .inBuf w => readInWord w s
  | .outBuf w => readOutWord w s

/-- A CMD write of any word (R19, R58, R64): the command it decodes to, or ILLEGAL. -/
def commandWrite (w : Word) (s : State) : Host.Outcome State Fault Refusal :=
  match decodeCmd s.cfg.ckPresent w with
  | .ok i => exec i s
  | .error _ => .next (issueIllegal s)

/-- What a write to each place does (R18 to R20, R25, R42): a read-only or reserved place ignores it. -/
def writePlace (p : Place) (v : Word) (s : State) : Host.Outcome State Fault Refusal :=
  match p with
  | .cmd => commandWrite v s
  | .status => .next (writeStatus v s)
  | .inLen => .next (writeInLen v s)
  | .inBuf w => .next (writeInWord w v s)
  | .outLen => .next s
  | .caps => .next s
  | .outCap => .next s
  | .reserved => .next s
  | .outBuf _ => .next s

/-- Records a bus response. -/
def respond (r : Response) (s : State) : State := { s with log := r :: s.log }

/-- One host step towards the completion of the running command (R7 LATENCY). -/
def tick (s : State) : State :=
  match s.eng with
  | .busy op (n + 1) => { s with eng := .busy op n }
  | .busy _ 0 => s
  | .idle => s

/-- The data of a 32-bit read at an offset: the word there, or free data when the offset is not a multiple of 4 (R39). -/
def readData (off : Nat) (s : State) : Word :=
  if off % 4 = 0 then readPlace (placeOf off) s else Config.unspecWord s.draws

/-- The bus answer to a 32-bit read at an offset: the word there, or BUS_ERROR (R39). -/
def readAnswer (off : Nat) (s : State) : Response :=
  if off % 4 = 0 then .data (readData off s) else .busError (some (readData off s))

/-- One bus access (R39, R46 to R48). A read changes nothing but the log and the count of free draws. -/
def access (a : Access) (s : State) : Host.Outcome State Fault Refusal :=
  match offsetOf s.cfg a.addr, a.dir with
  | none, _ => .next (respond .undecoded s)
  | some off, .read =>
    if a.width = .w32 then .next (spend 4 (respond (readAnswer off s) s))
    else .next (spend 4 (respond (.busError (some (Config.unspecWord s.draws))) s))
  | some off, .write v =>
    if a.width = .w32 ∧ off % 4 = 0 then writePlace (placeOf off) v (respond .written s)
    else .next (respond (.busError none) s)

/-- One read of a POLL line (R62): the line stays at the port until the data matches. -/
def pollOnce (off : BitVec 14) (mask want : Word) (rest : List Event) (s : State) : State :=
  spend 4 (respond (readAnswer off.toNat s)
    (if readData off.toNat s &&& mask = want then { s with port := rest } else s))

/-- The first event at the port takes place; `rest` is what arrives after it. -/
def serve (e : Event) (rest : List Event) (s : State) : Host.Outcome State Fault Refusal :=
  match e with
  | .access a => access a (tick { s with port := rest })
  | .poll off mask want => .next (pollOnce off mask want rest (tick s))
  | .reset => .next (resetBlock { s with port := rest })

/-- One turn of the machine: the engine where its completion is due, else the host's next event; with neither, the
block waits unchanged (R50, R63, R125). -/
def turn (s : State) : Host.Outcome State Fault Refusal :=
  if completionDue s then complete s
  else match s.port with
    | [] => .next s
    | e :: rest => serve e rest s

/-- The write of a command word to CMD, as a bus access (R56, R62). -/
def cmdWrite (c : Config) (w : Word) : Event :=
  .access { addr := c.base, width := .w32, dir := .write w }

/-- The engine with its completion put after at least one more host step. -/
def holdEngine : Engine → Engine
  | .busy op 0 => .busy op 1
  | .busy op (n + 1) => .busy op (n + 1)
  | .idle => .idle

end Sys2Proof.Machine
end

