-- ==== Sys2Proof/Machine/Step.lean ====
section
/-! DEFINITION. One step of the machine, and where the next command is placed. -/

namespace Sys2Proof.Machine

/-- One step: a configuration outside R7 is refused (U9), else one turn of the machine. -/
def step (s : State) : Host.Outcome State Fault Refusal :=
  if configLegal s.cfg then turn s else .refused .illegalConfiguration

/-- `s` with a CMD write of the command word `w` as the next event at the port, and a completion that is already
due put after it, so that the very next step performs that write (log entry 10). -/
def State.withFetchWord (s : State) (nbits w : Nat) : State :=
  { s with
    port := cmdWrite s.cfg (BitVec.ofNat 32 (w % 2 ^ nbits)) :: s.port
    eng := holdEngine s.eng }

end Sys2Proof.Machine
end

