-- ==== Sys2Proof/Safety.lean ====
section
/-! DEFINITION. The terms the claims use: the invariant of the block's state, a written input, a held result, the end
of a run and what is observed of it (R21, R33, R74, R125). -/

namespace Sys2Proof.Machine

/-- The invariant: what every state that a legal block can be in satisfies. -/
structure Invariant (s : State) : Prop where
  /-- Both buffers are in canonical form. -/
  inBuf_wf : Memory.wf s.inBuf
  outBuf_wf : Memory.wf s.outBuf
  /-- IN_BUF has IN_CAP bytes (R29) and OUT_BUF has OUT_CAP bytes (R30). -/
  inBuf_bound : ∀ c ∈ s.inBuf, c.1 < s.cfg.inCap
  outBuf_bound : ∀ c ∈ s.outBuf, c.1 < s.cfg.outCap
  /-- BUSY and DONE never hold together (R21). -/
  busy_not_done : s.busy = true → s.done = false
  /-- From acceptance to completion ERR and OUT_LEN are 0 and OUT_BUF is UNSPEC (R65). -/
  busy_err : s.busy = true → s.err = .ok
  busy_outLen : s.busy = true → s.outLen = 0
  busy_outBuf : s.busy = true → s.outBuf = []
  /-- A command with IN_LEN > IN_CAP is never accepted (R64). -/
  busy_inLen : s.busy = true → s.inLen.toNat ≤ s.cfg.inCap
  /-- A checked operation runs only where the checksum validator is built (R58). -/
  busy_checked : ∀ op wait, s.eng = .busy op wait → op = .cencode ∨ op = .cdecode → s.cfg.ckPresent = true
  /-- An error leaves no result (R100). -/
  failed_outLen : s.err ≠ .ok → s.outLen = 0
  /-- The published result lies inside OUT_BUF and every byte of it is stored (R68). -/
  outLen_bound : s.outLen.toNat ≤ s.cfg.outCap
  out_stored : ∀ i < s.outLen.toNat, (Memory.read s.outBuf i).isSome = true

/-- Every byte of the input IN_BUF[0 .. IN_LEN) has been written since reset (R120). -/
abbrev State.inputWritten (s : State) : Prop := ∀ i < s.inLen.toNat, (Memory.read s.inBuf i).isSome = true

/-- A state shows the outcome of a command (R74): a result with its length and ERR = 0, or an error code and
OUT_LEN = 0; DONE = 1 and BUSY = 0 in both cases. -/
def State.holdsResult (s : State) (r : Except CommandError (List Byte)) : Prop :=
  s.done = true ∧ s.busy = false ∧
  match r with
  | .ok out => s.err = .ok ∧ s.outLen.toNat = out.length ∧ outputBytes s = some out
  | .error e => s.err = .failed e ∧ s.outLen = 0

/-- `k` steps, stopping at the first fault or refusal: the host's run of this machine, written on its own state type
(`run_eq_core_run`). -/
def run : Nat → State → Host.Outcome State Fault Refusal
  | 0, s => .next s
  | k + 1, s =>
    match step s with
    | .next t => run k t
    | .fault r => .fault r
    | .refused r => .refused r

/-- A run is over: the host has no access left to issue and the engine is idle (R125). -/
abbrev State.runOver (s : State) : Prop := s.port = [] ∧ s.eng = .idle

/-- What is observed of a finished run (R125). -/
structure Observation where
  status : Word
  inLen : Half
  outLen : Half
  out : Option (List Byte)
  answers : List Response
deriving DecidableEq, Repr

/-- STATUS, IN_LEN, OUT_LEN, OUT_BUF[0 .. OUT_LEN) and every value the host's reads returned (R125). -/
def State.observation (s : State) : Observation :=
  { status := statusWord s, inLen := s.inLen, outLen := s.outLen, out := outputBytes s, answers := s.log }

end Sys2Proof.Machine
end

