-- ==== Sys2Proof/Certificates/Slice0/Obligations.lean ====
section
/-! DEFINITION. The statements for the provers, each from numbered rules of the spec. -/

open Sys2Proof Sys2Proof.Machine

/-- The four commands that start the engine, each with the operation it latches (R64, R67). -/
def Sys2Proof.Machine.startingCommands : List (Instr × Operation) :=
  [(.encode, .encode), (.decode, .decode), (.cencode, .cencode), (.cdecode, .cdecode)]

/-! ### Commands: encoding, acceptance and acceptance errors -/

/-- R58: decoding and encoding agree on every one of the 2^32 words, and the five words are 0 to 4. -/
def Obligations.DecodeIsExactlyEncode : Prop :=
  (∀ (ck : Bool) (w : Word) (i : Instr), decodeCmd ck w = .ok i ↔ i.wf ck = true ∧ w = encode i) ∧
  encode .nop = 0x00000000 ∧ encode .encode = 0x00000001 ∧ encode .decode = 0x00000002 ∧
  encode .cencode = 0x00000003 ∧ encode .cdecode = 0x00000004

/-- R60: the illegal words are exactly those listed, and what a write of one does in either state of BUSY. -/
def Obligations.IllegalWordsAreExactlyThoseListed : Prop :=
  ∀ (w : Word) (s : State),
    ((∃ e, decodeCmd s.cfg.ckPresent w = .error e) ↔
      (w.extractLsb' 3 29 ≠ 0 ∨ w.extractLsb' 0 3 = 5 ∨ w.extractLsb' 0 3 = 6 ∨ w.extractLsb' 0 3 = 7 ∨
        (s.cfg.ckPresent = false ∧ (w.extractLsb' 0 3 = 3 ∨ w.extractLsb' 0 3 = 4)))) ∧
    ((∃ e, decodeCmd s.cfg.ckPresent w = .error e) →
      (s.busy = false → commandWrite w s =
        .next { s with done := true, err := .failed .illegalCommand, outLen := 0 }) ∧
      (s.busy = true → commandWrite w s = .next { s with werr := true }))

/-- Sanity: the words of the opcode table and of 95_test_vectors.md section 2.4, written out bit by bit (OP in bits
2 to 0). -/
def Obligations.SpecWordsDecode : Prop :=
  decodeCmd true 0b00000000000000000000000000000000 = .ok .nop ∧
  decodeCmd true 0b00000000000000000000000000000001 = .ok .encode ∧
  decodeCmd true 0b00000000000000000000000000000010 = .ok .decode ∧
  decodeCmd true 0b00000000000000000000000000000011 = .ok .cencode ∧
  decodeCmd true 0b00000000000000000000000000000100 = .ok .cdecode ∧
  decodeCmd true 0b00000000000000000000000000000101 = .error .reservedOp ∧
  decodeCmd true 0b00000000000000000000000000001000 = .error .reservedBits ∧
  decodeCmd true 0b10000000000000000000000000000001 = .error .reservedBits ∧
  decodeCmd false 0b00000000000000000000000000000011 = .error .noChecksumUnit ∧
  decodeCmd false 0b00000000000000000000000000000100 = .error .noChecksumUnit

/-- R64: the whole decision of a CMD write, its checks in the order shown. -/
def Obligations.CommandWriteChecksInOrder : Prop :=
  ∀ (w : Word) (s : State), commandWrite w s =
    if s.busy then .next { s with werr := true }
    else match decodeCmd s.cfg.ckPresent w with
      | .error _ => .next (completeNow .illegalCommand s)
      | .ok .nop => .next s
      | .ok .encode => .next (if s.inLen.toNat > s.cfg.inCap then completeNow .length s else accept .encode s)
      | .ok .decode => .next (if s.inLen.toNat > s.cfg.inCap then completeNow .length s else accept .decode s)
      | .ok .cencode => .next (if s.inLen.toNat > s.cfg.inCap then completeNow .length s else accept .cencode s)
      | .ok .cdecode => .next (if s.inLen.toNat > s.cfg.inCap then completeNow .length s else accept .cdecode s)

/-- R70: NOP, with its encoding, both states of BUSY, and the words near it that are not NOP. -/
def Obligations.NopDoesNothingUnlessBusy : Prop :=
  (∀ s : State, s.busy = false → exec .nop s = .next s) ∧
  (∀ s : State, s.busy = true → exec .nop s = .next { s with werr := true }) ∧
  (∀ (ck : Bool) (w : Word), decodeCmd ck w = .ok .nop ↔ w = 0x00000000) ∧
  (∀ (s : State) (w : Word), s.busy = false → w.extractLsb' 0 3 = 0 → w.extractLsb' 3 29 ≠ 0 →
    commandWrite w s = .next { s with done := true, err := .failed .illegalCommand, outLen := 0 })

/-- R118: a write to CMD, IN_LEN or the IN_BUF window while BUSY is dropped and sets WERR, whichever it is. -/
def Obligations.WritesWhileBusyAreDropped : Prop :=
  ∀ s : State, s.busy = true →
    (∀ i : Instr, exec i s = .next { s with werr := true }) ∧
    (∀ w : Word, commandWrite w s = .next { s with werr := true }) ∧
    (∀ v : Word, writeInLen v s = { s with werr := true }) ∧
    (∀ (w : Nat) (v : Word), writeInWord w v s = { s with werr := true })

/-- R65: acceptance of ENCODE, DECODE, CENCODE or CDECODE. OUT_BUF is all UNSPEC after it: no byte is known. -/
def Obligations.AcceptedCommandStartsTheEngine : Prop :=
  ∀ p ∈ startingCommands, ∀ s : State, s.busy = false → s.inLen.toNat ≤ s.cfg.inCap →
    p.1.wf s.cfg.ckPresent = true →
    ∃ t wait, exec p.1 s = .next t ∧ t.eng = .busy p.2 wait ∧ t.busy = true ∧ t.done = false ∧ t.err = .ok ∧
      t.outLen = 0 ∧ (∀ a, Memory.read t.outBuf a = none) ∧
      t.werr = s.werr ∧ t.inLen = s.inLen ∧ t.inBuf = s.inBuf ∧ t.cfg = s.cfg ∧ t.port = s.port ∧ t.log = s.log

/-- R69: every finite latency is admitted, and every position of the completion with it. A command accepted where
the next latency is prescribed as n waits n host steps; while any of them is left and an event is at the port, the
step is that event and not the completion, and unless it is reset the engine runs on with one host step less; so with
n events at the port, none of them reset, the first n steps are the host's and step n + 1 is exactly the completion.
(The prescribed list, the wait count and the port are the model's own, log entries 6 and 9.) -/
def Obligations.EveryLatencyIsAdmitted : Prop :=
  (∀ p ∈ startingCommands, ∀ (s : State) (n : Nat), s.busy = false → s.inLen.toNat ≤ s.cfg.inCap →
    p.1.wf s.cfg.ckPresent = true →
    ∃ t, exec p.1 { s with latencies := [n] } = .next t ∧ t.eng = .busy p.2 n) ∧
  (∀ (s : State) (op : Operation) (n : Nat) (e : Event) (rest : List Event), configLegal s.cfg = true →
    s.eng = .busy op (n + 1) → s.port = e :: rest →
    completionDue s = false ∧ step s = serve e rest s ∧
    (e ≠ .reset → ∃ t, step s = .next t ∧ t.eng = .busy op n)) ∧
  (∀ (s : State) (op : Operation) (n : Nat), configLegal s.cfg = true → s.eng = .busy op n →
    n ≤ s.port.length → Event.reset ∉ s.port →
    (∀ k ≤ n, ∃ t, run k s = .next t ∧ t.eng = .busy op (n - k)) ∧
    ∃ t, run n s = .next t ∧ run (n + 1) s = complete t)

/-- R66: immediate completion with LENGTH or ILLEGAL_COMMAND. BUSY stays 0 (the engine field is that of `s`),
OUT_BUF is not written, and its lanes read as free values because OUT_LEN = 0. -/
def Obligations.AcceptanceErrorEndsTheCommandAtOnce : Prop :=
  ∀ s : State, s.busy = false →
    (∀ p ∈ startingCommands, p.1.wf s.cfg.ckPresent = true → s.cfg.inCap < s.inLen.toNat →
      exec p.1 s = .next { s with done := true, err := .failed .length, outLen := 0 }) ∧
    (∀ i : Instr, i.wf s.cfg.ckPresent = false →
      exec i s = .next { s with done := true, err := .failed .illegalCommand, outLen := 0 }) ∧
    (∀ w : Word, (∃ e, decodeCmd s.cfg.ckPresent w = .error e) →
      commandWrite w s = .next { s with done := true, err := .failed .illegalCommand, outLen := 0 }) ∧
    resultBits (.failed .illegalCommand) = 4 ∧ resultBits (.failed .length) = 5 ∧
    (∀ (e : CommandError) (i d : Nat), i < s.cfg.outCap →
      outLane { s with done := true, err := .failed e, outLen := 0 } i d = Config.unspecByte d)

/-- What every command leaves unchanged (R64 to R66, R70): the parameters, IN_LEN, every byte of IN_BUF, the port
and the log always; WERR while BUSY = 0; STATUS, the lengths and the buffers, all but WERR, while BUSY = 1; and every
byte of OUT_BUF unless the command was accepted, which leaves no byte of it known. -/
def Obligations.CommandFrame : Prop :=
  ∀ (i : Instr) (s t : State), exec i s = .next t →
    t.cfg = s.cfg ∧ t.inLen = s.inLen ∧ (∀ a, Memory.read t.inBuf a = Memory.read s.inBuf a) ∧
    t.port = s.port ∧ t.log = s.log ∧
    (s.busy = false → t.werr = s.werr) ∧
    (s.busy = true → t = { s with werr := true }) ∧
    (t.eng = s.eng → t.latencies = s.latencies ∧ t.draws = s.draws ∧
      ∀ a, Memory.read t.outBuf a = Memory.read s.outBuf a) ∧
    (t.eng ≠ s.eng → ∀ a, Memory.read t.outBuf a = none)

/-! ### The engine: results and completion -/

/-- ENCODE and DECODE run to their results: from an idle block whose input is written and fits, the command is
accepted and its completion shows b58encode or b58decode of the input (R67, R68, R88, R89). -/
def Obligations.ConverterCommandsReachTheirResults : Prop :=
  ∀ (s : State) (inp : List Byte), configLegal s.cfg = true → s.busy = false → s.inLen.toNat ≤ s.cfg.inCap →
    inputBytes s = some inp →
    (∃ t u, exec .encode s = .next t ∧ complete t = .next u ∧ u.holdsResult (.ok (b58encode inp)) ∧
      u.inLen = s.inLen ∧ u.inBuf = s.inBuf ∧ u.werr = s.werr) ∧
    (∃ t u, exec .decode s = .next t ∧ complete t = .next u ∧ u.holdsResult (b58decode inp) ∧
      u.inLen = s.inLen ∧ u.inBuf = s.inBuf ∧ u.werr = s.werr)

/-- CENCODE and CDECODE run to their results where the checksum validator is built (R67, R68, R97, R98). -/
def Obligations.CheckedCommandsReachTheirResults : Prop :=
  ∀ (s : State) (inp : List Byte), configLegal s.cfg = true → s.cfg.ckPresent = true → s.busy = false →
    s.inLen.toNat ≤ s.cfg.inCap → inputBytes s = some inp →
    (∃ t u, exec .cencode s = .next t ∧ complete t = .next u ∧
      u.holdsResult (.ok (chkEncode (hashOf s.cfg.hash) inp)) ∧
      u.inLen = s.inLen ∧ u.inBuf = s.inBuf ∧ u.werr = s.werr) ∧
    (∃ t u, exec .cdecode s = .next t ∧ complete t = .next u ∧
      u.holdsResult (chkDecode (hashOf s.cfg.hash) inp) ∧
      u.inLen = s.inLen ∧ u.inBuf = s.inBuf ∧ u.werr = s.werr)

/-- R68: completion faults on unwritten input, and else publishes the whole result in one step and changes nothing
else. OUT_BUF at and beyond OUT_LEN stays as it was. Where ENG = IDLE it is not enabled. -/
def Obligations.CompletionPublishesTheResult : Prop :=
  (∀ (s : State) (op : Operation) (wait : Nat), configLegal s.cfg = true → Invariant s → s.eng = .busy op wait →
    (inputBytes s = none → complete s = .fault .unwrittenInput) ∧
    (∀ inp, inputBytes s = some inp → ∃ u, complete s = .next u ∧
      u.holdsResult (compute op (hashOf s.cfg.hash) inp) ∧ u.eng = .idle ∧
      u.cfg = s.cfg ∧ u.werr = s.werr ∧ u.inLen = s.inLen ∧ u.inBuf = s.inBuf ∧ u.port = s.port ∧
      u.log = s.log ∧ u.latencies = s.latencies ∧ u.draws = s.draws ∧
      (∀ a, u.outLen.toNat ≤ a → Memory.read u.outBuf a = Memory.read s.outBuf a))) ∧
  (∀ s : State, s.eng = .idle → completionDue s = false ∧ complete s = .next s)

/-- The model's own schedule (log entries 6 and 9): a running engine completes when its latency is over or no host
event is left, and with ENG = IDLE and no host event left nothing changes any more (the end of a run, R125). -/
def Obligations.EngineTurnsAndTheEndOfARun : Prop :=
  (∀ (s : State) (op : Operation) (wait : Nat), configLegal s.cfg = true → s.eng = .busy op wait →
    (wait = 0 ∨ s.port = []) → step s = complete s) ∧
  (∀ s : State, configLegal s.cfg = true → s.runOver → step s = .next s)

/-- R120: the model's one fault: a completion with an input byte that no write has stored. No other step faults. -/
def Obligations.UnwrittenInputIsTheOnlyFault : Prop :=
  (∀ (s : State) (r : Fault), complete s = .fault r ↔
    r = .unwrittenInput ∧ s.busy = true ∧ ∃ i < s.inLen.toNat, Memory.read s.inBuf i = none) ∧
  (∀ (s : State) (r : Fault), step s = .fault r → completionDue s = true ∧ complete s = .fault r)

/-- R71: a result depends on ENG_OP, IN_LEN, the input bytes and HASH alone: two states that agree on them complete
alike, whatever else differs (latency, STATUS, OUT_BUF, WERR, the host's side). -/
def Obligations.ResultDependsOnFourThings : Prop :=
  ∀ (s t s' : State) (op : Operation) (n m : Nat), s.eng = .busy op n → t.eng = .busy op m →
    s.inLen = t.inLen → s.cfg.hash = t.cfg.hash →
    (∀ i < s.inLen.toNat, Memory.read s.inBuf i = Memory.read t.inBuf i) → complete s = .next s' →
    ∃ t', complete t = .next t' ∧ t'.err = s'.err ∧ t'.outLen = s'.outLen ∧ t'.done = s'.done ∧
      t'.busy = s'.busy ∧ ∀ i < s'.outLen.toNat, Memory.read t'.outBuf i = Memory.read s'.outBuf i

/-- R69 with R50 and R54: an accepted command finishes within its latency and one step more, whatever the host does
meanwhile short of reset, and shows the result of the input as it stood. -/
def Obligations.AcceptedCommandFinishesWithItsResult : Prop :=
  ∀ (s : State) (op : Operation) (wait : Nat) (inp : List Byte), configLegal s.cfg = true → Invariant s →
    s.eng = .busy op wait → inputBytes s = some inp → Event.reset ∉ s.port →
    ∃ k ≤ wait + 1, ∃ t : State, run k s = .next t ∧
      t.holdsResult (compute op (hashOf s.cfg.hash) inp)

/-- R117: between acceptance and completion OUT_LEN reads 0 and every OUT_BUF lane below OUT_CAP is a free value. -/
def Obligations.NothingIsVisibleWhileBusy : Prop :=
  ∀ s : State, Invariant s → s.busy = true →
    readPlace .outLen s = 0 ∧ ∀ i d, i < s.cfg.outCap → outLane s i d = Config.unspecByte d

/-! ### The machine's step -/

/-- Where the engine does not move first and the next event is a bus access, the step is exactly that access, on the
state with the access taken from the port and counted as one host step, which shortens a running command's wait and
changes nothing else. Where that access is a CMD write, the step performs exactly the decoded command. -/
def Obligations.StepRunsTheDecodedCommand : Prop :=
  (∀ (s : State) (a : Access) (rest : List Event), configLegal s.cfg = true → completionDue s = false →
    s.port = .access a :: rest → step s = access a (tick { s with port := rest })) ∧
  (∀ s : State, tick s = { s with eng := (tick s).eng } ∧ (tick s).busy = s.busy ∧
    ∀ op n, s.eng = .busy op (n + 1) → (tick s).eng = .busy op n) ∧
  (∀ (s : State) (w : Word) (rest : List Event), configLegal s.cfg = true → completionDue s = false →
    s.port = cmdWrite s.cfg w :: rest →
    (∀ i, decodeCmd s.cfg.ckPresent w = .ok i →
      step s = exec i (respond .written (tick { s with port := rest }))) ∧
    (∀ e, decodeCmd s.cfg.ckPresent w = .error e →
      step s = .next (issueIllegal (respond .written (tick { s with port := rest })))))

/-- U9: the refused configurations are exactly those that break a constraint of R7, with MAXENC(n) <= OUT_CAP
written as 256^n <= 58^OUT_CAP (R80). -/
def Obligations.OnlyIllegalConfigurationsAreRefused : Prop :=
  ∀ (s : State) (r : Refusal), step s = .refused r ↔
    r = .illegalConfiguration ∧
    ¬ (s.cfg.base % 0x4000 = 0 ∧ 1 ≤ s.cfg.inCap ∧ s.cfg.inCap ≤ 4096 ∧ s.cfg.outCap ≤ 8192 ∧
        256 ^ (s.cfg.inCap + 4 * s.cfg.ckPresent.toNat) ≤ 58 ^ s.cfg.outCap)

/-- R37: every piece of state after reset, for every legal choice of the parameters. -/
def Obligations.ResetValues : Prop :=
  ∀ c : Config, configLegal c = true →
    let s : State := { State.reset with cfg := c }
    s.busy = false ∧ s.done = false ∧ resultBits s.err = 0 ∧ s.werr = false ∧
    readPlace .status s = 0x00000000 ∧ readPlace .inLen s = 0 ∧ readPlace .outLen s = 0 ∧
    (readPlace .caps s).toNat = c.inCap + c.ckPresent.toNat * 2 ^ 16 ∧ (readPlace .outCap s).toNat = c.outCap ∧
    (∀ i, Memory.read s.inBuf i = none) ∧ (∀ i, Memory.read s.outBuf i = none) ∧ s.eng = .idle

/-- R113: the reset event, between two host accesses, in any state whose completion is not due first: every piece of
the block's state takes its reset value and an accepted command is abandoned without a result. That reset is a port
event which a due completion precedes (log entry 9), and that the model's own fields stay (log entry 17), are the
model's choices. -/
def Obligations.ResetEventAbandonsTheCommand : Prop :=
  ∀ (s : State) (rest : List Event), configLegal s.cfg = true → completionDue s = false →
    s.port = .reset :: rest →
    step s = .next { State.reset with
      cfg := s.cfg, port := rest, log := s.log, latencies := s.latencies, draws := s.draws }

/-- The invariant holds after reset, for every choice of the parameters. -/
def Obligations.ResetMeetsTheInvariant : Prop :=
  ∀ c : Config, Invariant { State.reset with cfg := c }

/-- Every step keeps the invariant, in every state that meets it. -/
def Obligations.StepKeepsTheInvariant : Prop :=
  ∀ s t : State, Invariant s → step s = .next t → Invariant t

/-- R27 and R28 at the whole machine: no step changes a parameter, so CAPS and OUTCAP are constants. -/
def Obligations.ParametersNeverChange : Prop :=
  ∀ s t : State, step s = .next t → t.cfg = s.cfg ∧ capsWord t.cfg = capsWord s.cfg ∧
    outCapWord t.cfg = outCapWord s.cfg

/-- R21: only the acceptance of a command sets BUSY, only completion or reset clears it, and BUSY = 1 and DONE = 1
never hold together. -/
def Obligations.BusyChangesOnlyAsStated : Prop :=
  (∀ s t : State, step s = .next t → s.busy = false → t.busy = true →
    ∃ w rest p, s.port = cmdWrite s.cfg w :: rest ∧ p ∈ startingCommands ∧
      decodeCmd s.cfg.ckPresent w = .ok p.1 ∧ s.inLen.toNat ≤ s.cfg.inCap ∧ ∃ n, t.eng = .busy p.2 n) ∧
  (∀ s t : State, step s = .next t → s.busy = true → t.busy = false →
    completionDue s = true ∨ ∃ rest, s.port = .reset :: rest) ∧
  (∀ s : State, Invariant s → ¬ (s.busy = true ∧ s.done = true))

/-- R22: DONE is set only by completion and by immediate completion, and cleared only by acceptance, by a STATUS
write with bit 1 set, or by reset. -/
def Obligations.DoneChangesOnlyAsStated : Prop :=
  (∀ s t : State, step s = .next t → s.done = false → t.done = true →
    (completionDue s = true ∧ t.busy = false) ∨
    ∃ w rest, s.port = cmdWrite s.cfg w :: rest ∧ s.busy = false ∧ t.busy = false ∧ t.outLen = 0 ∧
      (t.err = .failed .illegalCommand ∨ t.err = .failed .length)) ∧
  (∀ s t : State, step s = .next t → s.done = true → t.done = false →
    (s.busy = false ∧ t.busy = true) ∨
    (∃ v rest, s.port = .access { addr := s.cfg.base + 4, width := .w32, dir := .write v } :: rest ∧
      v.getLsbD 1 = true) ∨
    ∃ rest, s.port = .reset :: rest)

/-- R24: what sets WERR, that it is sticky, what clears it, and that no command is affected by it. -/
def Obligations.WerrIsStickyAndHarmless : Prop :=
  (∀ s t : State, step s = .next t → s.werr = false → t.werr = true →
    s.busy = true ∧ ∃ off v rest,
      s.port = .access { addr := s.cfg.base + off, width := .w32, dir := .write v } :: rest ∧
      off % 4 = 0 ∧ (off = 0x0000 ∨ off = 0x0008 ∨ (0x1000 ≤ off ∧ off < 0x2000))) ∧
  (∀ s t : State, step s = .next t → s.werr = true → t.werr = false →
    (∃ v rest, s.port = .access { addr := s.cfg.base + 4, width := .w32, dir := .write v } :: rest ∧
      v.getLsbD 8 = true) ∨
    ∃ rest, s.port = .reset :: rest) ∧
  (∀ s : State, s.busy = true →
    (∀ w, commandWrite w s = .next { s with werr := true }) ∧ (∀ v, writeInLen v s = { s with werr := true }) ∧
    ∀ w v, writeInWord w v s = { s with werr := true }) ∧
  (∀ (i : Instr) (s t : State) (b : Bool), s.busy = false → exec i s = .next t →
    exec i { s with werr := b } = .next { t with werr := b }) ∧
  (∀ (s t : State) (b : Bool), complete s = .next t → complete { s with werr := b } = .next { t with werr := b })

/-- R50 (c), R54: while a command runs, no step but reset changes IN_LEN or a byte of IN_BUF. -/
def Obligations.InputIsFixedWhileBusy : Prop :=
  ∀ s t : State, step s = .next t → s.busy = true →
    (t.inLen = s.inLen ∧ ∀ a, Memory.read t.inBuf a = Memory.read s.inBuf a) ∨
    ∃ rest, s.port = .reset :: rest

/-- R30: a byte of OUT_BUF that a step changes either becomes UNSPEC (acceptance and reset) or is written by
completion at an index below OUT_LEN. -/
def Obligations.OnlyCompletionWritesOutBuf : Prop :=
  ∀ (s t : State) (a : Nat), Invariant s → step s = .next t →
    Memory.read t.outBuf a ≠ Memory.read s.outBuf a →
    Memory.read t.outBuf a = none ∨ (completionDue s = true ∧ a < t.outLen.toNat)

/-! ### The bus -/

/-- R20: the fields of the STATUS word, the reserved bits, the reset value, and what a write does, in either state
of BUSY. -/
def Obligations.StatusFieldsAndWrites : Prop :=
  (∀ s : State, (statusWord s).getLsbD 0 = s.busy ∧ (statusWord s).getLsbD 1 = s.done ∧
    (statusWord s).extractLsb' 2 2 = 0 ∧ (statusWord s).extractLsb' 4 4 = resultBits s.err ∧
    (statusWord s).getLsbD 8 = s.werr ∧ (statusWord s).extractLsb' 9 23 = 0) ∧
  statusWord State.reset = 0 ∧
  (∀ (w : Word) (s : State), writePlace .status w s = .next { s with
    done := if w.getLsbD 1 then false else s.done, werr := if w.getLsbD 8 then false else s.werr })

/-- R23, R99: the result codes, and that no code from 6 to 15 is ever held. -/
def Obligations.ResultCodes : Prop :=
  resultBits .ok = 0 ∧ resultBits (.failed .invalidCharacter) = 1 ∧ resultBits (.failed .tooShort) = 2 ∧
  resultBits (.failed .checksumMismatch) = 3 ∧ resultBits (.failed .illegalCommand) = 4 ∧
  resultBits (.failed .length) = 5 ∧ ∀ c, (resultBits c).toNat ≤ 5

/-- R18, R46: what a 32-bit read of each offset of the window returns, and that it changes nothing but the bus log
and the count of free values drawn. -/
def Obligations.ReadsFollowTheRegisterMap : Prop :=
  ∀ (s : State) (off : Nat), off < 0x4000 → off % 4 = 0 →
    access { addr := s.cfg.base + off, width := .w32, dir := .read } s = .next { s with
      draws := s.draws + 4
      log := .data (
        if off = 0x0000 then 0
        else if off = 0x0004 then statusWord s
        else if off = 0x0008 then s.inLen.zeroExtend 32
        else if off = 0x000C then s.outLen.zeroExtend 32
        else if off = 0x0010 then capsWord s.cfg
        else if off = 0x0014 then outCapWord s.cfg
        else if off < 0x1000 then 0
        else if off < 0x2000 then readInWord ((off - 0x1000) / 4) s
        else readOutWord ((off - 0x2000) / 4) s) :: s.log }

/-- R18, R20, R25, R42, R64: what a 32-bit write to each offset of the window does; the read-only and reserved
places ignore it, with no WERR. -/
def Obligations.WritesFollowTheRegisterMap : Prop :=
  ∀ (s : State) (off : Nat) (v : Word), off < 0x4000 → off % 4 = 0 →
    access { addr := s.cfg.base + off, width := .w32, dir := .write v } s =
      (let u : State := { s with log := .written :: s.log }
       if off = 0x0000 then commandWrite v u
       else if off = 0x0004 then .next (writeStatus v u)
       else if off = 0x0008 then .next (writeInLen v u)
       else if 0x1000 ≤ off ∧ off < 0x2000 then .next (writeInWord ((off - 0x1000) / 4) v u)
       else .next u)

/-- R27 and R28: CAPS and OUTCAP, for every legal configuration; a write to either changes nothing. -/
def Obligations.CapsAndOutcapAreConstants : Prop :=
  (∀ c : Config, configLegal c = true →
    ((capsWord c).extractLsb' 0 16).toNat = c.inCap ∧ (capsWord c).getLsbD 16 = c.ckPresent ∧
    (capsWord c).extractLsb' 17 15 = 0 ∧
    ((outCapWord c).extractLsb' 0 16).toNat = c.outCap ∧ (outCapWord c).extractLsb' 16 16 = 0) ∧
  (∀ (s : State) (v : Word), writePlace .caps v s = .next s ∧ writePlace .outCap v s = .next s)

/-- R39, R101: an access that breaks R39 gets BUS_ERROR and changes no STATUS field and no other state of the block; a
write dropped while BUSY sets only WERR. The free word a read answers, the four draws it spends and the log it is
answered in are the model's choices (log entries 5, 4 and 15). -/
def Obligations.BusErrorChangesNothing : Prop :=
  (∀ (s : State) (a : Access) (off : Nat), a.addr = s.cfg.base + off → off < 0x4000 →
    (a.width ≠ .w32 ∨ off % 4 ≠ 0) →
    access a s = .next (match a.dir with
      | .read => { s with
          log := .busError (some (Config.unspecWord s.draws)) :: s.log, draws := s.draws + 4 }
      | .write _ => { s with log := .busError none :: s.log })) ∧
  (∀ s : State, s.busy = true →
    (∀ w, commandWrite w s = .next { s with werr := true }) ∧ (∀ v, writeInLen v s = { s with werr := true }) ∧
    ∀ w v, writeInWord w v s = { s with werr := true })

/-- R48: an address outside the window is not decoded: no state of the block changes. -/
def Obligations.OutsideTheWindowIsNotDecoded : Prop :=
  ∀ (s : State) (a : Access), (a.addr < s.cfg.base ∨ s.cfg.base + 0x4000 ≤ a.addr) →
    access a s = .next { s with log := .undecoded :: s.log }

/-- R40: lane k of a bus word is bits 8k+7 to 8k, and packing puts each lane there. -/
def Obligations.LanesAreLittleEndian : Prop :=
  (∀ (lane : Nat → Byte) (k : Nat), k < 4 → laneOf (packLanes lane) k = lane k) ∧
  (∀ (v : Word) (k : Nat), k < 4 → (laneOf v k).toNat = v.toNat / 2 ^ (8 * k) % 256) ∧
  (∀ v : Word, packLanes (laneOf v) = v)

/-- R25: a write of IN_LEN stores bits 15 to 0 whatever their value, a read returns them with zeros above, and a
write while BUSY is dropped. -/
def Obligations.InLenStoresSixteenBits : Prop :=
  ∀ (s : State) (v : Word),
    (s.busy = false → writeInLen v s = { s with inLen := v.setWidth 16 }) ∧
    (s.busy = true → writeInLen v s = { s with werr := true }) ∧
    (readPlace .inLen s).extractLsb' 0 16 = s.inLen ∧ (readPlace .inLen s).extractLsb' 16 16 = 0

/-- R41: an IN_BUF window read and every lane of its data, in either state of BUSY. An unwritten byte is a free value.
How the bus log and the count of free values drawn move is the model's choice (log entries 15 and 4). -/
def Obligations.InBufReads : Prop :=
  ∀ (s : State) (w : Nat), w < 1024 →
    access { addr := s.cfg.base + (0x1000 + 4 * w), width := .w32, dir := .read } s = .next { s with
      log := .data (readInWord w s) :: s.log, draws := s.draws + 4 } ∧
    ∀ k < 4, laneOf (readInWord w s) k =
      if 4 * w + k < s.cfg.inCap then
        match Memory.read s.inBuf (4 * w + k) with
        | some b => b
        | none => Config.unspecByte (s.draws + k)
      else 0

/-- R42: an IN_BUF window write stores its four lanes below IN_CAP, leaves every other byte and every other field,
and is dropped while BUSY. -/
def Obligations.InBufWrites : Prop :=
  ∀ (s : State) (w : Nat) (v : Word),
    (s.busy = true → writeInWord w v s = { s with werr := true }) ∧
    (s.busy = false →
      writeInWord w v s = { s with inBuf := (writeInWord w v s).inBuf } ∧
      (∀ k < 4, 4 * w + k < s.cfg.inCap →
        Memory.read (writeInWord w v s).inBuf (4 * w + k) = some (laneOf v k)) ∧
      (∀ i, i / 4 ≠ w ∨ s.cfg.inCap ≤ i →
        Memory.read (writeInWord w v s).inBuf i = Memory.read s.inBuf i))

/-- R43: every lane of an OUT_BUF window read: the result below OUT_LEN, free values up to OUT_CAP, zeros beyond, and
OUT_LEN = 0 while BUSY. The first clause is of states that meet the invariant, where the result is stored. A write is
ignored. Which draw a free value takes is the model's choice (log entry 4). -/
def Obligations.OutBufReads : Prop :=
  (∀ (s : State) (w k : Nat), Invariant s → w < 2048 → k < 4 →
    placeOf (0x2000 + 4 * w) = .outBuf w ∧
    (4 * w + k < s.outLen.toNat → some (laneOf (readPlace (.outBuf w) s) k) = Memory.read s.outBuf (4 * w + k)) ∧
    (s.outLen.toNat ≤ 4 * w + k → 4 * w + k < s.cfg.outCap →
      laneOf (readPlace (.outBuf w) s) k = Config.unspecByte (s.draws + k)) ∧
    (s.cfg.outCap ≤ 4 * w + k → laneOf (readPlace (.outBuf w) s) k = 0) ∧
    (s.busy = true → s.outLen = 0)) ∧
  (∀ (s : State) (w : Nat) (v : Word), w < 2048 → writePlace (placeOf (0x2000 + 4 * w)) v s = .next s)

/-- R62: one iteration of a POLL line is one 32-bit read of its offset; the line goes from the port exactly when
the data matches, and nothing but the port, the log, the draw count and the running command's wait changes. -/
def Obligations.PollReadsUntilTheDataMatches : Prop :=
  ∀ (s : State) (off : BitVec 14) (mask want : Word) (rest : List Event), configLegal s.cfg = true →
    completionDue s = false → s.port = .poll off mask want :: rest → off.toNat % 4 = 0 →
    let v := readPlace (placeOf off.toNat) s
    step s = .next { tick s with
      port := if v &&& mask = want then rest else s.port
      log := .data v :: s.log
      draws := s.draws + 4 }

/-! ### The base converter -/

/-- R31: the alphabet is the codes of the spec's 58-character string. -/
def Obligations.AlphabetIsTheSpecString : Prop :=
  alphabet = ("123456789ABCDEFGHJKLMNPQRSTUVWXYZabcdefghijkmnopqrstuvwxyz".toList.map
    fun c => BitVec.ofNat 8 c.toNat) ∧ alphabet.length = 58 ∧ zeroChar = 0x31 ∧
  (0x30 : Byte) ∉ alphabet ∧ (0x4F : Byte) ∉ alphabet ∧ (0x49 : Byte) ∉ alphabet ∧ (0x6C : Byte) ∉ alphabet

/-- R32: digitOf is the inverse of ALPHA, and fails on every code outside the alphabet, the listed ones among them. -/
def Obligations.DigitOfInvertsTheAlphabet : Prop :=
  (∀ (c : Byte) (d : Fin 58), digitOf c = some d ↔ alpha d = c) ∧
  (∀ c : Byte, digitOf c = none ↔ c ∉ alphabet) ∧
  (∀ c ∈ ([0x00, 0x20, 0x30, 0x49, 0x4F, 0x6C] : List Byte), digitOf c = none) ∧
  (∀ c : Byte, 0x80 ≤ c.toNat → digitOf c = none)

/-- R75: lz is the largest k such that the first k elements are all x. -/
def Obligations.LeadingRunLength : Prop :=
  ∀ (s : List Byte) (x : Byte), lz s x ≤ s.length ∧ (∀ i < lz s x, s[i]? = some x) ∧
    ∀ k ≤ s.length, (∀ i < k, s[i]? = some x) → k ≤ lz s x

/-- R76: the values are the positional sums, most significant element first, and the val58 fold is the same number. -/
def Obligations.ValuesArePositionalSums : Prop :=
  (∀ b : List Byte, val256 b =
    ∑ i ∈ Finset.range b.length, (b.getD i 0).toNat * 256 ^ (b.length - 1 - i)) ∧
  (∀ d : List (Fin 58), val58 d =
    ∑ i ∈ Finset.range d.length, (d.getD i 0).val * 58 ^ (d.length - 1 - i)) ∧
  val256 [] = 0 ∧ val58 [] = 0 ∧
  (∀ d : List (Fin 58), val58 d = d.foldl (fun value digit => value * 58 + digit.val) 0)

/-- R77: digits58 is the minimal base-58 sequence of its argument, by the loop's equation and by its value. -/
def Obligations.DigitsAreMinimal : Prop :=
  digits58 0 = [] ∧
  (∀ v, 0 < v → digits58 v = digits58 (v / 58) ++ [Fin.ofNat 58 (v % 58)]) ∧
  (∀ v, 0 < v → (∃ d, (digits58 v).head? = some d ∧ d ≠ 0) ∧ val58 (digits58 v) = v)

/-- R78: bytes256 is the minimal base-256 sequence of its argument. -/
def Obligations.BytesAreMinimal : Prop :=
  bytes256 0 = [] ∧
  (∀ v, 0 < v → bytes256 v = bytes256 (v / 256) ++ [BitVec.ofNat 8 (v % 256)]) ∧
  (∀ v, 0 < v → (∃ b, (bytes256 v).head? = some b ∧ b ≠ 0) ∧ val256 (bytes256 v) = v)

/-- R80: MAXENC(n) is the least k with 58^k >= 256^n, and the greatest digit count of a value below 256^n. -/
def Obligations.MaxEncIsTheLongestEncoding : Prop :=
  ∀ n : Nat, 256 ^ n ≤ 58 ^ maxEnc n ∧ (∀ k < maxEnc n, 58 ^ k < 256 ^ n) ∧
    (∀ v < 256 ^ n, (digits58 v).length ≤ maxEnc n) ∧ (digits58 (256 ^ n - 1)).length = maxEnc n

/-- R81: MAXDEC(m) is the least j with 256^j >= 58^m, and the greatest byte count of a value below 58^m. -/
def Obligations.MaxDecIsTheLongestDecoding : Prop :=
  ∀ m : Nat, 58 ^ m ≤ 256 ^ maxDec m ∧ (∀ j < maxDec m, 256 ^ j < 58 ^ m) ∧
    (∀ v < 58 ^ m, (bytes256 v).length ≤ maxDec m) ∧ (bytes256 (58 ^ m - 1)).length = maxDec m

/-- R84: leading zero bytes and leading zero-characters correspond, and the element after them is neither. -/
def Obligations.LeadingZerosCorrespond : Prop :=
  (∀ b : List Byte, lz (b58encode b) zeroChar = lz b 0 ∧
    ((b58encode b).drop (lz b 0)).head? ≠ some zeroChar) ∧
  (∀ t r : List Byte, b58decode t = .ok r → lz r 0 = lz t zeroChar ∧
    (r.drop (lz t zeroChar)).head? ≠ some 0) ∧
  (∀ t : List Byte, validText t = true → ∃ r, b58decode t = .ok r)

/-- R85: encoding and decoding are inverse bijections between all byte sequences and all valid texts. -/
def Obligations.EncodeAndDecodeAreInverse : Prop :=
  (∀ b : List Byte, b58decode (b58encode b) = .ok b) ∧
  (∀ t : List Byte, validText t = true → ∃ b, b58decode t = .ok b ∧ b58encode b = t) ∧
  (∀ b : List Byte, validText (b58encode b) = true)

/-- R83: decoding fails on exactly the texts with a character outside the alphabet, wherever it stands, and only with
INVALID_CHARACTER. -/
def Obligations.DecodeFailsExactlyOnInvalidTexts : Prop :=
  ∀ (t : List Byte) (e : CommandError),
    b58decode t = .error e ↔ e = .invalidCharacter ∧ ∃ c ∈ t, c ∉ alphabet

/-- R86: the lengths of both conversions, and that every ENCODE and DECODE result fits OUT_BUF. -/
def Obligations.ConversionLengths : Prop :=
  (∀ b : List Byte, (b58encode b).length = lz b 0 + (digits58 (val256 b)).length ∧
    (b58encode b).length ≤ maxEnc b.length) ∧
  (∀ t r : List Byte, b58decode t = .ok r →
    r.length ≤ lz t zeroChar + maxDec (t.length - lz t zeroChar) ∧
    lz t zeroChar + maxDec (t.length - lz t zeroChar) ≤ t.length) ∧
  (∀ (c : Config) (x : List Byte), configLegal c = true → x.length ≤ c.inCap →
    (b58encode x).length ≤ c.outCap ∧ ∀ r, b58decode x = .ok r → r.length ≤ c.outCap)

/-! ### The checksum codec -/

/-- R91: the checksum is the bytes 0 to 3 of HASH(HASH(p)), in that order, the second argument being the 32 bytes of
the first digest. -/
def Obligations.ChecksumIsFourBytesOfTheDoubleHash : Prop :=
  ∀ (hash : List Byte → Digest) (p : List Byte),
    let c2 := hash (hash p).toList
    checksum hash p = [c2[0], c2[1], c2[2], c2[3]]

/-- R92: the checked text encodes the payload with its checksum as the last four bytes, and the leading-zero rule
applies to that whole sequence. -/
def Obligations.CheckedTextEncodesPayloadAndChecksum : Prop :=
  ∀ (hash : List Byte → Digest) (p : List Byte),
    chkEncode hash p = b58encode (p ++ checksum hash p) ∧ (checksum hash p).length = 4 ∧
    b58decode (chkEncode hash p) = .ok (p ++ checksum hash p) ∧
    lz (chkEncode hash p) zeroChar = lz (p ++ checksum hash p) 0

/-- R93: the outcomes of chkDecode, each exactly when its check is the first to decide. -/
def Obligations.CheckedDecodeDecidesInOrder : Prop :=
  ∀ (hash : List Byte → Digest) (t : List Byte),
    (chkDecode hash t = .error .invalidCharacter ↔ validText t = false) ∧
    (chkDecode hash t = .error .tooShort ↔ ∃ raw, b58decode t = .ok raw ∧ raw.length < 4) ∧
    (chkDecode hash t = .error .checksumMismatch ↔
      ∃ p suffix, b58decode t = .ok (p ++ suffix) ∧ suffix.length = 4 ∧ suffix ≠ checksum hash p) ∧
    (∀ p, chkDecode hash t = .ok p ↔ b58decode t = .ok (p ++ checksum hash p))

/-- R94: the checked round trip, for every HASH. -/
def Obligations.CheckedRoundTrip : Prop :=
  ∀ (hash : List Byte → Digest) (p : List Byte), chkDecode hash (chkEncode hash p) = .ok p

/-- R96: the lengths of the checked conversions, and that a checked text fits OUT_BUF. -/
def Obligations.CheckedLengths : Prop :=
  (∀ (hash : List Byte → Digest) (p : List Byte), (chkEncode hash p).length ≤ maxEnc (p.length + 4)) ∧
  (∀ (c : Config) (p : List Byte), configLegal c = true → c.ckPresent = true → p.length ≤ c.inCap →
    maxEnc (p.length + 4) ≤ maxEnc (c.inCap + 4) ∧ maxEnc (c.inCap + 4) ≤ c.outCap) ∧
  (∀ (hash : List Byte → Digest) (t p : List Byte), chkDecode hash t = .ok p →
    ∃ raw, b58decode t = .ok raw ∧ p.length = raw.length - 4 ∧ 4 ≤ raw.length ∧ raw.length ≤ t.length)
end

