-- ==== Sys2Proof/Laws/Base58.lean ====
section
/-! SUPPORT. The definitions of the base converter in terms of the library's digits and values, and the small facts
about the alphabet, leading runs and the least power. -/

namespace Sys2Proof.Machine

/-- The loop of R77 is the library's digit list, most significant first, in front of what was collected. -/
theorem digitLoop_eq_digits {base : Nat} (hb : 2 ≤ base) (fuel v : Nat) (hf : v ≤ fuel) (acc : List Nat) :
    digitLoop base fuel v acc = (Nat.digits base v).reverse ++ acc := by
  induction fuel generalizing v acc with
  | zero =>
    obtain rfl : v = 0 := by omega
    simp [digitLoop]
  | succ fuel ih =>
    rw [digitLoop]
    split_ifs with h
    · simp [h]
    · have hlt : v / base < v := Nat.div_lt_self (by omega) (by omega)
      rw [ih _ (by omega), Nat.digits_def' (n := v) (by omega) (by omega)]
      simp

theorem minDigits_eq_digits {base : Nat} (hb : 2 ≤ base) (v : Nat) :
    minDigits base v = (Nat.digits base v).reverse := by
  simp [minDigits, digitLoop_eq_digits hb v v le_rfl]

/-- Every minimal digit is below the base. -/
theorem minDigits_lt {base : Nat} (hb : 2 ≤ base) {v d : Nat} (h : d ∈ minDigits base v) : d < base := by
  rw [minDigits_eq_digits hb, List.mem_reverse] at h
  exact Nat.digits_lt_base (by omega) h

theorem digits58_val (v : Nat) : (digits58 v).map Fin.val = minDigits 58 v := by
  rw [digits58, List.map_map]
  refine (List.map_congr_left fun d hd => ?_).trans (List.map_id _)
  exact Nat.mod_eq_of_lt (minDigits_lt (by omega) hd)

theorem bytes256_toNat (v : Nat) : (bytes256 v).map BitVec.toNat = minDigits 256 v := by
  rw [bytes256, List.map_map]
  refine (List.map_congr_left fun d hd => ?_).trans (List.map_id _)
  simpa using Nat.mod_eq_of_lt (minDigits_lt (by omega) hd)

theorem digits58_length (v : Nat) : (digits58 v).length = (Nat.digits 58 v).length := by
  simp [digits58, minDigits_eq_digits]

theorem bytes256_length (v : Nat) : (bytes256 v).length = (Nat.digits 256 v).length := by
  simp [bytes256, minDigits_eq_digits]

/-- A fold from the most significant digit is the library's value of the reversed digits. -/
theorem foldl_digits_eq (base : Nat) (d : List Nat) :
    d.foldl (fun v x => v * base + x) 0 = Nat.ofDigits base d.reverse := by
  rw [Nat.ofDigits_eq_foldr, List.foldr_reverse]
  simp [Nat.add_comm, Nat.mul_comm]

theorem val58_eq_ofDigits (d : List (Fin 58)) : val58 d = Nat.ofDigits 58 (d.map Fin.val).reverse := by
  rw [← foldl_digits_eq, List.foldl_map]
  rfl

theorem val256_eq_ofDigits (b : List Byte) : val256 b = Nat.ofDigits 256 (b.map BitVec.toNat).reverse := by
  rw [← foldl_digits_eq, List.foldl_map]
  rfl

/-- The 58 entries of the alphabet are distinct (R32). -/
theorem digitOf_alpha (d : Fin 58) : digitOf (alpha d) = some d := by
  revert d
  decide

theorem alpha_injective : Function.Injective alpha := fun d e h => by
  have := digitOf_alpha d
  rw [h, digitOf_alpha] at this
  exact (Option.some.inj this).symm

theorem alpha_of_digitOf {c : Byte} {d : Fin 58} (h : digitOf c = some d) : alpha d = c := by
  simpa using List.find?_some h

/-- A sequence is its leading run of x and what follows it. -/
theorem replicate_lz_append_drop (s : List Byte) (x : Byte) :
    List.replicate (lz s x) x ++ s.drop (lz s x) = s := by
  induction s with
  | nil => rfl
  | cons c s ih =>
    by_cases h : c = x
    · subst h
      simpa [lz, List.replicate_succ] using ih
    · simp [lz, h]

/-- What follows the leading run of x does not start with x. -/
theorem head_drop_lz_ne (s : List Byte) (x : Byte) : (s.drop (lz s x)).head? ≠ some x := by
  induction s with
  | nil => simp
  | cons c s ih =>
    by_cases h : c = x
    · subst h
      simpa [lz] using ih
    · simp [lz, h]

theorem lz_le_length (s : List Byte) (x : Byte) : lz s x ≤ s.length :=
  (List.takeWhile_sublist _).length_le

/-- The leading run of x in n copies of x and a rest that does not start with x. -/
theorem lz_replicate_append (n : Nat) (x : Byte) (r : List Byte) (h : r.head? ≠ some x) :
    lz (List.replicate n x ++ r) x = n := by
  induction n with
  | zero => cases r <;> simp_all [lz]
  | succ n ih => simpa [lz, List.replicate_succ] using ih

/-- The least power: what the search returns where the fuel suffices. -/
theorem leastPower_spec {base : Nat} (target fuel p : Nat) (h : target ≤ p * base ^ fuel) :
    target ≤ p * base ^ leastPower base target fuel p ∧
      ∀ k < leastPower base target fuel p, p * base ^ k < target := by
  induction fuel generalizing p with
  | zero => simpa [leastPower] using h
  | succ fuel ih =>
    rw [leastPower]
    split_ifs with hp
    · simpa using hp
    · obtain ⟨h1, h2⟩ := ih (p * base) (by rwa [Nat.mul_assoc, ← Nat.pow_succ'])
      refine ⟨by rwa [Nat.pow_succ', ← Nat.mul_assoc], fun k hk => ?_⟩
      cases k with
      | zero => simpa using hp
      | succ k => rw [Nat.pow_succ', ← Nat.mul_assoc]; exact h2 k (by omega)

/-- A checksum is four bytes (R91). -/
@[simp] theorem checksum_length (hash : List Byte → Digest) (p : List Byte) : (checksum hash p).length = 4 := by
  simp [checksum]

end Sys2Proof.Machine
end

