-- ==== Sys2Proof/Laws/State.lean ====
section
/-! SUPPORT. One lemma per field of State per update, so that no proof unfolds a record update. -/

namespace Sys2Proof.Machine

section
variable (w : Word) (s : State)
@[simp] theorem writeStatus_cfg : (writeStatus w s).cfg = s.cfg := rfl
@[simp] theorem writeStatus_eng : (writeStatus w s).eng = s.eng := rfl
@[simp] theorem writeStatus_done : (writeStatus w s).done = (s.done && !w.getLsbD 1) := rfl
@[simp] theorem writeStatus_err : (writeStatus w s).err = s.err := rfl
@[simp] theorem writeStatus_werr : (writeStatus w s).werr = (s.werr && !w.getLsbD 8) := rfl
@[simp] theorem writeStatus_inLen : (writeStatus w s).inLen = s.inLen := rfl
@[simp] theorem writeStatus_outLen : (writeStatus w s).outLen = s.outLen := rfl
@[simp] theorem writeStatus_inBuf : (writeStatus w s).inBuf = s.inBuf := rfl
@[simp] theorem writeStatus_outBuf : (writeStatus w s).outBuf = s.outBuf := rfl
@[simp] theorem writeStatus_port : (writeStatus w s).port = s.port := rfl
@[simp] theorem writeStatus_log : (writeStatus w s).log = s.log := rfl
@[simp] theorem writeStatus_latencies : (writeStatus w s).latencies = s.latencies := rfl
@[simp] theorem writeStatus_draws : (writeStatus w s).draws = s.draws := rfl
@[simp] theorem writeStatus_busy : (writeStatus w s).busy = s.busy := rfl
end

section
variable (s : State)
@[simp] theorem dropWrite_cfg : (dropWrite s).cfg = s.cfg := rfl
@[simp] theorem dropWrite_eng : (dropWrite s).eng = s.eng := rfl
@[simp] theorem dropWrite_done : (dropWrite s).done = s.done := rfl
@[simp] theorem dropWrite_err : (dropWrite s).err = s.err := rfl
@[simp] theorem dropWrite_werr : (dropWrite s).werr = true := rfl
@[simp] theorem dropWrite_inLen : (dropWrite s).inLen = s.inLen := rfl
@[simp] theorem dropWrite_outLen : (dropWrite s).outLen = s.outLen := rfl
@[simp] theorem dropWrite_inBuf : (dropWrite s).inBuf = s.inBuf := rfl
@[simp] theorem dropWrite_outBuf : (dropWrite s).outBuf = s.outBuf := rfl
@[simp] theorem dropWrite_port : (dropWrite s).port = s.port := rfl
@[simp] theorem dropWrite_log : (dropWrite s).log = s.log := rfl
@[simp] theorem dropWrite_latencies : (dropWrite s).latencies = s.latencies := rfl
@[simp] theorem dropWrite_draws : (dropWrite s).draws = s.draws := rfl
@[simp] theorem dropWrite_busy : (dropWrite s).busy = s.busy := rfl
end

section
variable (c : ResultCode) (s : State)
@[simp] theorem flagsEnded_cfg : (flagsEnded c s).cfg = s.cfg := rfl
@[simp] theorem flagsEnded_eng : (flagsEnded c s).eng = .idle := rfl
@[simp] theorem flagsEnded_done : (flagsEnded c s).done = true := rfl
@[simp] theorem flagsEnded_err : (flagsEnded c s).err = c := rfl
@[simp] theorem flagsEnded_werr : (flagsEnded c s).werr = s.werr := rfl
@[simp] theorem flagsEnded_inLen : (flagsEnded c s).inLen = s.inLen := rfl
@[simp] theorem flagsEnded_outLen : (flagsEnded c s).outLen = s.outLen := rfl
@[simp] theorem flagsEnded_inBuf : (flagsEnded c s).inBuf = s.inBuf := rfl
@[simp] theorem flagsEnded_outBuf : (flagsEnded c s).outBuf = s.outBuf := rfl
@[simp] theorem flagsEnded_port : (flagsEnded c s).port = s.port := rfl
@[simp] theorem flagsEnded_log : (flagsEnded c s).log = s.log := rfl
@[simp] theorem flagsEnded_latencies : (flagsEnded c s).latencies = s.latencies := rfl
@[simp] theorem flagsEnded_draws : (flagsEnded c s).draws = s.draws := rfl
@[simp] theorem flagsEnded_busy : (flagsEnded c s).busy = false := rfl
end

section
variable (op : Operation) (n : Nat) (s : State)
@[simp] theorem flagsAccepted_cfg : (flagsAccepted op n s).cfg = s.cfg := rfl
@[simp] theorem flagsAccepted_eng : (flagsAccepted op n s).eng = .busy op n := rfl
@[simp] theorem flagsAccepted_done : (flagsAccepted op n s).done = false := rfl
@[simp] theorem flagsAccepted_err : (flagsAccepted op n s).err = .ok := rfl
@[simp] theorem flagsAccepted_werr : (flagsAccepted op n s).werr = s.werr := rfl
@[simp] theorem flagsAccepted_inLen : (flagsAccepted op n s).inLen = s.inLen := rfl
@[simp] theorem flagsAccepted_outLen : (flagsAccepted op n s).outLen = s.outLen := rfl
@[simp] theorem flagsAccepted_inBuf : (flagsAccepted op n s).inBuf = s.inBuf := rfl
@[simp] theorem flagsAccepted_outBuf : (flagsAccepted op n s).outBuf = s.outBuf := rfl
@[simp] theorem flagsAccepted_port : (flagsAccepted op n s).port = s.port := rfl
@[simp] theorem flagsAccepted_log : (flagsAccepted op n s).log = s.log := rfl
@[simp] theorem flagsAccepted_latencies : (flagsAccepted op n s).latencies = s.latencies := rfl
@[simp] theorem flagsAccepted_draws : (flagsAccepted op n s).draws = s.draws := rfl
@[simp] theorem flagsAccepted_busy : (flagsAccepted op n s).busy = true := rfl
end

section
variable (n : Nat) (s : State)
@[simp] theorem spend_cfg : (spend n s).cfg = s.cfg := rfl
@[simp] theorem spend_eng : (spend n s).eng = s.eng := rfl
@[simp] theorem spend_done : (spend n s).done = s.done := rfl
@[simp] theorem spend_err : (spend n s).err = s.err := rfl
@[simp] theorem spend_werr : (spend n s).werr = s.werr := rfl
@[simp] theorem spend_inLen : (spend n s).inLen = s.inLen := rfl
@[simp] theorem spend_outLen : (spend n s).outLen = s.outLen := rfl
@[simp] theorem spend_inBuf : (spend n s).inBuf = s.inBuf := rfl
@[simp] theorem spend_outBuf : (spend n s).outBuf = s.outBuf := rfl
@[simp] theorem spend_port : (spend n s).port = s.port := rfl
@[simp] theorem spend_log : (spend n s).log = s.log := rfl
@[simp] theorem spend_latencies : (spend n s).latencies = s.latencies := rfl
@[simp] theorem spend_draws : (spend n s).draws = s.draws + n := rfl
@[simp] theorem spend_busy : (spend n s).busy = s.busy := rfl
end

section
variable (op : Operation) (s : State)
@[simp] theorem accept_cfg : (accept op s).cfg = s.cfg := rfl
@[simp] theorem accept_eng : (accept op s).eng = .busy op (nextLatency op s) := rfl
@[simp] theorem accept_done : (accept op s).done = false := rfl
@[simp] theorem accept_err : (accept op s).err = .ok := rfl
@[simp] theorem accept_werr : (accept op s).werr = s.werr := rfl
@[simp] theorem accept_inLen : (accept op s).inLen = s.inLen := rfl
@[simp] theorem accept_outLen : (accept op s).outLen = 0 := rfl
@[simp] theorem accept_inBuf : (accept op s).inBuf = s.inBuf := rfl
@[simp] theorem accept_outBuf : (accept op s).outBuf = [] := rfl
@[simp] theorem accept_port : (accept op s).port = s.port := rfl
@[simp] theorem accept_log : (accept op s).log = s.log := rfl
@[simp] theorem accept_latencies : (accept op s).latencies = s.latencies.tail := rfl
@[simp] theorem accept_draws : (accept op s).draws = s.draws + 1 := rfl
@[simp] theorem accept_busy : (accept op s).busy = true := rfl
end

section
variable (e : CommandError) (s : State)
@[simp] theorem completeNow_cfg : (completeNow e s).cfg = s.cfg := rfl
@[simp] theorem completeNow_eng : (completeNow e s).eng = .idle := rfl
@[simp] theorem completeNow_done : (completeNow e s).done = true := rfl
@[simp] theorem completeNow_err : (completeNow e s).err = .failed e := rfl
@[simp] theorem completeNow_werr : (completeNow e s).werr = s.werr := rfl
@[simp] theorem completeNow_inLen : (completeNow e s).inLen = s.inLen := rfl
@[simp] theorem completeNow_outLen : (completeNow e s).outLen = 0 := rfl
@[simp] theorem completeNow_inBuf : (completeNow e s).inBuf = s.inBuf := rfl
@[simp] theorem completeNow_outBuf : (completeNow e s).outBuf = s.outBuf := rfl
@[simp] theorem completeNow_port : (completeNow e s).port = s.port := rfl
@[simp] theorem completeNow_log : (completeNow e s).log = s.log := rfl
@[simp] theorem completeNow_latencies : (completeNow e s).latencies = s.latencies := rfl
@[simp] theorem completeNow_draws : (completeNow e s).draws = s.draws := rfl
@[simp] theorem completeNow_busy : (completeNow e s).busy = false := rfl
end

section
variable (out : List Byte) (s : State)
@[simp] theorem publish_cfg : (publish out s).cfg = s.cfg := rfl
@[simp] theorem publish_eng : (publish out s).eng = s.eng := rfl
@[simp] theorem publish_done : (publish out s).done = s.done := rfl
@[simp] theorem publish_err : (publish out s).err = s.err := rfl
@[simp] theorem publish_werr : (publish out s).werr = s.werr := rfl
@[simp] theorem publish_inLen : (publish out s).inLen = s.inLen := rfl
@[simp] theorem publish_outLen : (publish out s).outLen = BitVec.ofNat 16 out.length := rfl
@[simp] theorem publish_inBuf : (publish out s).inBuf = s.inBuf := rfl
@[simp] theorem publish_outBuf : (publish out s).outBuf = Memory.writeBytes s.outBuf 0 out := rfl
@[simp] theorem publish_port : (publish out s).port = s.port := rfl
@[simp] theorem publish_log : (publish out s).log = s.log := rfl
@[simp] theorem publish_latencies : (publish out s).latencies = s.latencies := rfl
@[simp] theorem publish_draws : (publish out s).draws = s.draws := rfl
@[simp] theorem publish_busy : (publish out s).busy = s.busy := rfl
end

section
variable (r : Response) (s : State)
@[simp] theorem respond_cfg : (respond r s).cfg = s.cfg := rfl
@[simp] theorem respond_eng : (respond r s).eng = s.eng := rfl
@[simp] theorem respond_done : (respond r s).done = s.done := rfl
@[simp] theorem respond_err : (respond r s).err = s.err := rfl
@[simp] theorem respond_werr : (respond r s).werr = s.werr := rfl
@[simp] theorem respond_inLen : (respond r s).inLen = s.inLen := rfl
@[simp] theorem respond_outLen : (respond r s).outLen = s.outLen := rfl
@[simp] theorem respond_inBuf : (respond r s).inBuf = s.inBuf := rfl
@[simp] theorem respond_outBuf : (respond r s).outBuf = s.outBuf := rfl
@[simp] theorem respond_port : (respond r s).port = s.port := rfl
@[simp] theorem respond_log : (respond r s).log = r :: s.log := rfl
@[simp] theorem respond_latencies : (respond r s).latencies = s.latencies := rfl
@[simp] theorem respond_draws : (respond r s).draws = s.draws := rfl
@[simp] theorem respond_busy : (respond r s).busy = s.busy := rfl
end

section
variable (s : State)
@[simp] theorem resetBlock_cfg : (resetBlock s).cfg = s.cfg := rfl
@[simp] theorem resetBlock_eng : (resetBlock s).eng = .idle := rfl
@[simp] theorem resetBlock_done : (resetBlock s).done = false := rfl
@[simp] theorem resetBlock_err : (resetBlock s).err = .ok := rfl
@[simp] theorem resetBlock_werr : (resetBlock s).werr = false := rfl
@[simp] theorem resetBlock_inLen : (resetBlock s).inLen = 0 := rfl
@[simp] theorem resetBlock_outLen : (resetBlock s).outLen = 0 := rfl
@[simp] theorem resetBlock_inBuf : (resetBlock s).inBuf = [] := rfl
@[simp] theorem resetBlock_outBuf : (resetBlock s).outBuf = [] := rfl
@[simp] theorem resetBlock_port : (resetBlock s).port = s.port := rfl
@[simp] theorem resetBlock_log : (resetBlock s).log = s.log := rfl
@[simp] theorem resetBlock_latencies : (resetBlock s).latencies = s.latencies := rfl
@[simp] theorem resetBlock_draws : (resetBlock s).draws = s.draws := rfl
@[simp] theorem resetBlock_busy : (resetBlock s).busy = false := rfl
end

section
variable (s : State)
@[simp] theorem tick_cfg : (tick s).cfg = s.cfg := by unfold tick; split <;> rfl
@[simp] theorem tick_done : (tick s).done = s.done := by unfold tick; split <;> rfl
@[simp] theorem tick_err : (tick s).err = s.err := by unfold tick; split <;> rfl
@[simp] theorem tick_werr : (tick s).werr = s.werr := by unfold tick; split <;> rfl
@[simp] theorem tick_inLen : (tick s).inLen = s.inLen := by unfold tick; split <;> rfl
@[simp] theorem tick_outLen : (tick s).outLen = s.outLen := by unfold tick; split <;> rfl
@[simp] theorem tick_inBuf : (tick s).inBuf = s.inBuf := by unfold tick; split <;> rfl
@[simp] theorem tick_outBuf : (tick s).outBuf = s.outBuf := by unfold tick; split <;> rfl
@[simp] theorem tick_port : (tick s).port = s.port := by unfold tick; split <;> rfl
@[simp] theorem tick_log : (tick s).log = s.log := by unfold tick; split <;> rfl
@[simp] theorem tick_latencies : (tick s).latencies = s.latencies := by unfold tick; split <;> rfl
@[simp] theorem tick_draws : (tick s).draws = s.draws := by unfold tick; split <;> rfl
@[simp] theorem tick_busy : (tick s).busy = s.busy := by
  unfold tick
  split <;> simp_all [State.busy]
end

/-- BUSY = 0 says that the engine is idle (R33). -/
theorem busy_eq_false_iff (s : State) : s.busy = false ↔ s.eng = .idle := by
  unfold State.busy
  cases s.eng <;> simp

/-- BUSY = 1 says that the engine runs a latched operation (R33). -/
theorem busy_eq_true_iff (s : State) : s.busy = true ↔ ∃ op wait, s.eng = .busy op wait := by
  unfold State.busy
  cases s.eng <;> simp

end Sys2Proof.Machine
end

