-- ==== Sys2Proof/Laws/Machine.lean ====
section
/-! SUPPORT. What each shared operation can do, said once: a command, a window write, and a step. -/

namespace Sys2Proof.Machine

/-- Everything a CMD write can do to a state (R64). -/
inductive CommandEffect (s : State) : State → Prop
  | dropped (h : s.busy = true) : CommandEffect s (dropWrite s)
  | nothing (h : s.busy = false) : CommandEffect s s
  | ended (e : CommandError) (h : s.busy = false) : CommandEffect s (completeNow e s)
  | accepted (op : Operation) (h : s.busy = false) (hl : s.inLen.toNat ≤ s.cfg.inCap)
      (hc : op = .cencode ∨ op = .cdecode → s.cfg.ckPresent = true) : CommandEffect s (accept op s)

theorem issueIllegal_effect (s : State) : CommandEffect s (issueIllegal s) := by
  unfold issueIllegal
  split_ifs with h
  · exact .dropped h
  · exact .ended _ (by simpa using h)

theorem issue_effect (op : Operation) (s : State)
    (hc : op = .cencode ∨ op = .cdecode → s.cfg.ckPresent = true) : CommandEffect s (issue op s) := by
  unfold issue
  split_ifs with h hl
  · exact .dropped h
  · exact .ended _ (by simpa using h)
  · exact .accepted op (by simpa using h) (by omega) hc

theorem issueChecked_effect (op : Operation) (s : State) : CommandEffect s (issueChecked op s) := by
  unfold issueChecked
  split_ifs with h
  · exact issue_effect op s fun _ => h
  · exact issueIllegal_effect s

/-- A command always answers a next state, and it is one of the effects of R64. -/
theorem exec_effect (i : Instr) (s : State) : ∃ t, exec i s = .next t ∧ CommandEffect s t := by
  cases i with
  | nop =>
    refine ⟨_, rfl, ?_⟩
    split_ifs with h
    · exact .dropped h
    · exact .nothing (by simpa using h)
  | encode => exact ⟨_, rfl, issue_effect .encode s (by simp)⟩
  | decode => exact ⟨_, rfl, issue_effect .decode s (by simp)⟩
  | cencode => exact ⟨_, rfl, issueChecked_effect .cencode s⟩
  | cdecode => exact ⟨_, rfl, issueChecked_effect .cdecode s⟩

theorem commandWrite_effect (w : Word) (s : State) : ∃ t, commandWrite w s = .next t ∧ CommandEffect s t := by
  unfold commandWrite
  split
  · exact exec_effect _ s
  · exact ⟨_, rfl, issueIllegal_effect s⟩

/-- Everything a write to a place of the window can do. -/
inductive WriteEffect (s : State) : Place → Word → State → Prop
  | command (w : Word) (t : State) (h : CommandEffect s t) : WriteEffect s .cmd w t
  | status (w : Word) : WriteEffect s .status w (writeStatus w s)
  | inLen (v : Word) : WriteEffect s .inLen v (writeInLen v s)
  | inBuf (w : Nat) (v : Word) : WriteEffect s (.inBuf w) v (writeInWord w v s)
  | ignored (p : Place) (v : Word) : WriteEffect s p v s

theorem writePlace_effect (p : Place) (v : Word) (s : State) :
    ∃ t, writePlace p v s = .next t ∧ WriteEffect s p v t := by
  cases p with
  | cmd =>
    obtain ⟨t, h, ht⟩ := commandWrite_effect v s
    exact ⟨t, h, .command v t ht⟩
  | status => exact ⟨_, rfl, .status v⟩
  | inLen => exact ⟨_, rfl, .inLen v⟩
  | inBuf w => exact ⟨_, rfl, .inBuf w v⟩
  | outLen => exact ⟨_, rfl, .ignored _ v⟩
  | caps => exact ⟨_, rfl, .ignored _ v⟩
  | outCap => exact ⟨_, rfl, .ignored _ v⟩
  | reserved => exact ⟨_, rfl, .ignored _ v⟩
  | outBuf w => exact ⟨_, rfl, .ignored _ v⟩

/-- `s` after the first event at the port is taken as one host step: `rest` is left, and the engine's wait is one
step shorter. -/
def taken (rest : List Event) (s : State) : State := tick { s with port := rest }

section
variable (rest : List Event) (s : State)
@[simp] theorem taken_port : (taken rest s).port = rest := by simp [taken]
@[simp] theorem taken_cfg : (taken rest s).cfg = s.cfg := by simp [taken]
@[simp] theorem taken_done : (taken rest s).done = s.done := by simp [taken]
@[simp] theorem taken_err : (taken rest s).err = s.err := by simp [taken]
@[simp] theorem taken_werr : (taken rest s).werr = s.werr := by simp [taken]
@[simp] theorem taken_inLen : (taken rest s).inLen = s.inLen := by simp [taken]
@[simp] theorem taken_outLen : (taken rest s).outLen = s.outLen := by simp [taken]
@[simp] theorem taken_inBuf : (taken rest s).inBuf = s.inBuf := by simp [taken]
@[simp] theorem taken_outBuf : (taken rest s).outBuf = s.outBuf := by simp [taken]
@[simp] theorem taken_log : (taken rest s).log = s.log := by simp [taken]
@[simp] theorem taken_latencies : (taken rest s).latencies = s.latencies := by simp [taken]
@[simp] theorem taken_draws : (taken rest s).draws = s.draws := by simp [taken]
@[simp] theorem taken_busy : (taken rest s).busy = s.busy := by
  simp only [taken, tick_busy]
  rfl

/-- What is left of a running engine's wait after one host step. -/
theorem taken_eng : (taken rest s).eng = match s.eng with
    | .busy op (n + 1) => .busy op n
    | .busy op 0 => .busy op 0
    | .idle => .idle := by
  obtain ⟨cfg, eng, done, err, werr, inLen, outLen, inBuf, outBuf, port, log, latencies, draws⟩ := s
  unfold taken tick
  rcases eng with _ | ⟨op, _ | n⟩ <;> rfl
end

/-- Everything a step that answers a next state can have done. -/
inductive StepEffect (s : State) : State → Prop
  /-- The engine's completion (R68). -/
  | completed (op : Operation) (wait : Nat) (inp : List Byte) (he : s.eng = .busy op wait)
      (hd : completionDue s = true) (hi : inputBytes s = some inp) :
      StepEffect s (publishResult (compute op (hashOf s.cfg.hash) inp) s)
  /-- Nothing is left to do (R125). -/
  | waited (he : s.eng = .idle) (hp : s.port = []) : StepEffect s s
  /-- The reset input (R113). -/
  | reset (rest : List Event) (hd : completionDue s = false) (hp : s.port = .reset :: rest) :
      StepEffect s (resetBlock { s with port := rest })
  /-- A read, a read of a POLL line, a refused access or one outside the window: only the log, the draws, the
  port and the engine's wait move. -/
  | answered (e : Event) (rest port : List Event) (r : Response) (n : Nat) (hd : completionDue s = false)
      (hp : s.port = e :: rest) (hport : port = rest ∨ port = s.port) (hr : r ≠ .written) :
      StepEffect s (spend n (respond r (taken port s)))
  /-- A write that meets R39. -/
  | wrote (a : Access) (rest : List Event) (off : Nat) (v : Word) (t : State) (hd : completionDue s = false)
      (hp : s.port = .access a :: rest) (ho : offsetOf s.cfg a.addr = some off) (hw : a.width = .w32)
      (hoff : off % 4 = 0) (hdir : a.dir = .write v)
      (ht : writePlace (placeOf off) v (respond .written (taken rest s)) = .next t) : StepEffect s t

theorem tick_with_port (rest : List Event) (s : State) : { tick s with port := rest } = taken rest s := by
  obtain ⟨cfg, eng, done, err, werr, inLen, outLen, inBuf, outBuf, port, log, latencies, draws⟩ := s
  unfold taken tick
  rcases eng with _ | ⟨op, _ | n⟩ <;> rfl

theorem tick_eq_taken (s : State) : tick s = taken s.port s := rfl

theorem serve_effect (e : Event) (rest : List Event) (s : State) (hd : completionDue s = false)
    (hp : s.port = e :: rest) : ∃ t, serve e rest s = .next t ∧ StepEffect s t := by
  cases e with
  | reset => exact ⟨_, rfl, .reset rest hd hp⟩
  | poll off mask want =>
    refine ⟨_, rfl, ?_⟩
    unfold pollOnce
    have hr : readAnswer off.toNat (tick s) ≠ .written := by
      unfold readAnswer
      split_ifs <;> simp
    split_ifs with h
    · rw [tick_with_port]
      exact .answered _ rest rest _ 4 hd hp (.inl rfl) hr
    · exact .answered _ rest s.port _ 4 hd hp (.inr rfl) hr
  | access a =>
    have hread (r : Response) (n : Nat) (hr : r ≠ .written) : StepEffect s (spend n (respond r (taken rest s))) :=
      .answered _ rest rest r n hd hp (.inl rfl) hr
    show ∃ t, access a (taken rest s) = .next t ∧ StepEffect s t
    unfold access
    cases ho : offsetOf (taken rest s).cfg a.addr with
    | none => exact ⟨_, rfl, hread .undecoded 0 (by simp)⟩
    | some off =>
      cases hdir : a.dir with
      | read =>
        by_cases hw : a.width = .w32
        · exact ⟨_, if_pos hw, hread _ 4 (by unfold readAnswer; split_ifs <;> simp)⟩
        · exact ⟨_, if_neg hw, hread _ 4 (by simp)⟩
      | write v =>
        by_cases hw : a.width = .w32 ∧ off % 4 = 0
        · obtain ⟨t, ht, -⟩ := writePlace_effect (placeOf off) v (respond .written (taken rest s))
          exact ⟨t, (if_pos hw).trans ht, .wrote a rest off v t hd hp (by simpa using ho) hw.1 hw.2 hdir ht⟩
        · exact ⟨_, if_neg hw, hread _ 0 (by simp)⟩

/-- The inversion of a step: the configuration is legal, and one of the effects took place. -/
theorem step_effect {s t : State} (h : step s = .next t) : configLegal s.cfg = true ∧ StepEffect s t := by
  unfold step at h
  split_ifs at h with hc
  refine ⟨hc, ?_⟩
  unfold turn at h
  by_cases hd : completionDue s = true
  · rw [if_pos hd] at h
    unfold complete at h
    split at h
    · rename_i he
      simp [completionDue, he] at hd
    · rename_i op wait he
      split at h
      · simp at h
      · rename_i inp hi
        obtain rfl : publishResult (compute op (hashOf s.cfg.hash) inp) s = t := by simpa using h
        exact .completed op wait inp he hd hi
  · have hd : completionDue s = false := by simpa using hd
    rw [hd] at h
    simp only [Bool.false_eq_true, if_false] at h
    split at h
    · rename_i hp
      obtain rfl : s = t := by simpa using h
      refine .waited ?_ hp
      unfold completionDue at hd
      split at hd
      · assumption
      · simp [hp] at hd
    · rename_i e rest hp
      obtain ⟨t', ht', he⟩ := serve_effect e rest s hd hp
      obtain rfl : t' = t := by rw [ht'] at h; simpa using h
      exact he

/-- What completion publishes changes nothing but DONE, ERR, ENG, OUT_LEN and OUT_BUF (R68). -/
theorem publishResult_frame (r : Except CommandError (List Byte)) (s : State) :
    let t := publishResult r s
    t.cfg = s.cfg ∧ t.eng = .idle ∧ t.done = true ∧ t.werr = s.werr ∧ t.inLen = s.inLen ∧ t.inBuf = s.inBuf ∧
      t.port = s.port ∧ t.log = s.log ∧ t.latencies = s.latencies ∧ t.draws = s.draws := by
  cases r <;> simp [publishResult]

/-- What a command leaves as it was (R64 to R66, R70). -/
theorem CommandEffect.frame {s t : State} (h : CommandEffect s t) :
    t.cfg = s.cfg ∧ t.inLen = s.inLen ∧ t.inBuf = s.inBuf ∧ t.port = s.port ∧ t.log = s.log := by
  cases h <;> simp

theorem storeLane_frame (i : Nat) (b : Byte) (s : State) :
    storeLane i b s = { s with inBuf := (storeLane i b s).inBuf } := by
  unfold storeLane
  split_ifs <;> rfl

/-- A window write to IN_BUF changes IN_BUF or WERR and nothing else (R42). -/
theorem writeInWord_frame (w : Nat) (v : Word) (s : State) :
    writeInWord w v s = { s with inBuf := (writeInWord w v s).inBuf, werr := s.werr || s.busy } := by
  unfold writeInWord
  split_ifs with h
  · simp [dropWrite, h]
  · simp only [h, Bool.or_false]
    rw [storeLane_frame, storeLane_frame (4 * w + 2), storeLane_frame (4 * w + 1), storeLane_frame (4 * w)]

/-- A write to IN_LEN changes IN_LEN or WERR and nothing else (R25). -/
theorem writeInLen_frame (v : Word) (s : State) :
    writeInLen v s = { s with inLen := (writeInLen v s).inLen, werr := s.werr || s.busy } := by
  unfold writeInLen
  split_ifs with h
  · simp [dropWrite, h]
  · simp [h]

end Sys2Proof.Machine
end

