-- ==== Sys2Proof/Laws/Memory.lean ====
section
/-! SUPPORT. What the memory operations do: reads after writes, and that every write keeps the canonical form. -/

namespace Sys2Proof.Machine

@[simp] theorem Memory.read_nil (a : Nat) : Memory.read [] a = none := rfl

theorem Memory.read_write (m : Memory) (a i : Nat) (b : Byte) :
    Memory.read (Memory.write m a b) i = if i = a then some b else Memory.read m i := by
  induction m with
  | nil => simp [Memory.write, Memory.read]
  | cons c m ih =>
    obtain ⟨j, c⟩ := c
    by_cases h1 : a < j
    · simp [Memory.write, h1, Memory.read]
    · by_cases h2 : a = j
      · subst h2
        simp only [Memory.write, h1, if_false, if_true, Memory.read]
        split_ifs <;> rfl
      · simp only [Memory.write, h1, h2, if_false, Memory.read, ih]
        split_ifs <;> simp_all

@[simp] theorem Memory.read_write_self (m : Memory) (a : Nat) (b : Byte) :
    Memory.read (Memory.write m a b) a = some b := by simp [Memory.read_write]

theorem Memory.read_write_other (m : Memory) {a i : Nat} (b : Byte) (h : i ≠ a) :
    Memory.read (Memory.write m a b) i = Memory.read m i := by simp [Memory.read_write, h]

/-- The cells of a written memory are the old ones and the new one. -/
theorem Memory.mem_write {m : Memory} {a : Nat} {b : Byte} {c : Host.Cell}
    (h : c ∈ Memory.write m a b) : c = (a, b) ∨ c ∈ m := by
  induction m with
  | nil => simpa [Memory.write] using h
  | cons d m ih =>
    simp only [Memory.write] at h
    split_ifs at h
    · simpa using h
    · simp only [List.mem_cons] at h ⊢
      tauto
    · simp only [List.mem_cons] at h ⊢
      rcases h with h | h
      · exact .inr (.inl h)
      · exact (ih h).imp id .inr

theorem Memory.write_wf {m : Memory} (h : Memory.wf m) (a : Nat) (b : Byte) : Memory.wf (Memory.write m a b) := by
  induction m with
  | nil => simp [Memory.write]
  | cons d m ih =>
    obtain ⟨hd, hm⟩ := List.pairwise_cons.1 h
    simp only [Memory.write]
    split_ifs with h1 h2
    · refine List.pairwise_cons.2 ⟨fun c hc => ?_, h⟩
      rcases List.mem_cons.1 hc with rfl | hc
      · exact h1
      · exact h1.trans (hd c hc)
    · subst h2
      exact List.pairwise_cons.2 ⟨fun c hc => hd c hc, hm⟩
    · refine List.pairwise_cons.2 ⟨fun c hc => ?_, ih hm⟩
      rcases Memory.mem_write hc with rfl | hc
      · show d.1 < a
        omega
      · exact hd c hc

theorem Memory.writeBytes_wf {m : Memory} (h : Memory.wf m) (a : Nat) (bs : List Byte) :
    Memory.wf (Memory.writeBytes m a bs) := by
  induction bs generalizing m a with
  | nil => exact h
  | cons b bs ih => exact ih (Memory.write_wf h a b) (a + 1)

/-- The cells of a memory after a sequence is stored lie inside the stored range or were there before. -/
theorem Memory.mem_writeBytes {m : Memory} {a : Nat} {bs : List Byte} {c : Host.Cell}
    (h : c ∈ Memory.writeBytes m a bs) : (a ≤ c.1 ∧ c.1 < a + bs.length) ∨ c ∈ m := by
  induction bs generalizing m a with
  | nil => exact .inr h
  | cons b bs ih =>
    rcases ih h with h | h
    · left
      simp only [List.length_cons]
      omega
    · rcases Memory.mem_write h with rfl | h
      · left
        simp
      · exact .inr h

theorem Memory.read_writeBytes (m : Memory) (a i : Nat) (bs : List Byte) :
    Memory.read (Memory.writeBytes m a bs) i = if a ≤ i ∧ i < a + bs.length then bs[i - a]? else Memory.read m i := by
  induction bs generalizing m a with
  | nil => simp [Memory.writeBytes, show ¬(a ≤ i ∧ i < a) by omega]
  | cons b bs ih =>
    simp only [Memory.writeBytes, ih, Memory.read_write, List.length_cons]
    by_cases h : i = a
    · subst h
      simp [show ¬(i + 1 ≤ i) by omega]
    · by_cases h2 : a ≤ i ∧ i < a + (bs.length + 1)
      · rw [if_pos (by omega), if_pos h2, show i - a = (i - (a + 1)) + 1 by omega, List.getElem?_cons_succ]
      · rw [if_neg (by omega), if_neg h, if_neg h2]

/-- What a byte sequence read from a memory is: every byte of the range is listed. -/
theorem Memory.readBytes_eq_some_iff (m : Memory) (a n : Nat) (bs : List Byte) :
    Memory.readBytes m a n = some bs ↔ bs.length = n ∧ ∀ i < n, Memory.read m (a + i) = bs[i]? := by
  induction n generalizing a bs with
  | zero => cases bs <;> simp [Memory.readBytes]
  | succ n ih =>
    simp only [Memory.readBytes]
    constructor
    · intro h
      split at h
      · rename_i b bs' hb hbs
        obtain rfl : b :: bs' = bs := by simpa using h
        obtain ⟨hl, hr⟩ := (ih _ _).1 hbs
        refine ⟨by simp [hl], fun i hi => ?_⟩
        cases i with
        | zero => simpa using hb
        | succ i => simpa [Nat.add_assoc, Nat.add_comm 1 i] using hr i (by omega)
      · exact absurd h (by simp)
    · rintro ⟨hl, hr⟩
      cases bs with
      | nil => simp at hl
      | cons b bs =>
        have h0 := hr 0 (by omega)
        have hs : Memory.readBytes m (a + 1) n = some bs :=
          (ih _ _).2 ⟨by simpa using hl, fun i hi => by
            simpa [Nat.add_assoc, Nat.add_comm 1 i] using hr (i + 1) (by omega)⟩
        simp only [Nat.add_zero, List.getElem?_cons_zero] at h0
        rw [h0, hs]

/-- A byte sequence cannot be read exactly when some byte of the range is not listed. -/
theorem Memory.readBytes_eq_none_iff (m : Memory) (a n : Nat) :
    Memory.readBytes m a n = none ↔ ∃ i < n, Memory.read m (a + i) = none := by
  induction n generalizing a with
  | zero => simp [Memory.readBytes]
  | succ n ih =>
    simp only [Memory.readBytes]
    constructor
    · intro h
      cases hb : Memory.read m a with
      | none => exact ⟨0, by omega, hb⟩
      | some b =>
        cases hs : Memory.readBytes m (a + 1) n with
        | some bs => simp [hb, hs] at h
        | none =>
          obtain ⟨i, hi, hn⟩ := (ih _).1 hs
          exact ⟨i + 1, by omega, by simpa [Nat.add_assoc, Nat.add_comm 1 i] using hn⟩
    · rintro ⟨i, hi, hn⟩
      cases i with
      | zero =>
        rw [Nat.add_zero] at hn
        rw [hn]
      | succ i =>
        rw [(ih (a + 1)).2 ⟨i, by omega, by simpa [Nat.add_assoc, Nat.add_comm 1 i] using hn⟩]
        split <;> simp_all

/-- A sequence stored from index `a` on reads back. -/
theorem Memory.readBytes_writeBytes (m : Memory) (a : Nat) (bs : List Byte) :
    Memory.readBytes (Memory.writeBytes m a bs) a bs.length = some bs := by
  refine (Memory.readBytes_eq_some_iff _ _ _ _).2 ⟨rfl, fun i hi => ?_⟩
  rw [Memory.read_writeBytes, if_pos (by omega), Nat.add_sub_cancel_left]

/-- An index that no cell of a memory has reads as nothing. -/
theorem Memory.read_eq_none_of_bound {m : Memory} {n i : Nat} (h : ∀ c ∈ m, c.1 < n) (hi : n ≤ i) :
    Memory.read m i = none := by
  induction m with
  | nil => rfl
  | cons c m ih =>
    obtain ⟨j, b⟩ := c
    have hj : j < n := h (j, b) (by simp)
    simp only [Memory.read, show ¬ i = j by omega, if_false]
    exact ih fun c hc => h c (by simp [hc])

end Sys2Proof.Machine
end

