-- ==== Sys2Proof/Laws/PerInstr.lean ====
section
/-! SUPPORT. Statements made once per command: every command a block has is read back from its own word (R57, R58). -/

namespace Sys2Proof.Laws

/-- On a block that has the command, the word `encode i` decodes to it; on a block without the checksum validator
the word of a checked command is illegal. -/
def RoundTrip.Statement (i : Instr) : Prop :=
  ∀ ck : Bool, decodeCmd ck (encode i) = if i.wf ck then .ok i else .error .noChecksumUnit

theorem RoundTrip.nop : RoundTrip.Statement .nop := by intro ck; cases ck <;> rfl
theorem RoundTrip.encode : RoundTrip.Statement .encode := by intro ck; cases ck <;> rfl
theorem RoundTrip.decode : RoundTrip.Statement .decode := by intro ck; cases ck <;> rfl
theorem RoundTrip.cencode : RoundTrip.Statement .cencode := by intro ck; cases ck <;> rfl
theorem RoundTrip.cdecode : RoundTrip.Statement .cdecode := by intro ck; cases ck <;> rfl

end Sys2Proof.Laws
end

