-- ==== Sys2Proof/Laws/Run.lean ====
section
/-! SUPPORT. The run of the claims is the host's run of the core. -/

namespace Sys2Proof.Machine

theorem run_eq_core_run (k : Nat) (s : State) : run k s = Host.Core.run core k s := by
  induction k generalizing s with
  | zero => rfl
  | succ k ih =>
    cases h : step s with
    | next t =>
      have hc : core.step s = .next t := h
      simp only [run, Host.Core.run, h, hc]
      exact ih t
    | fault r =>
      have hc : core.step s = .fault r := h
      simp only [run, Host.Core.run, h, hc]
      rfl
    | refused r =>
      have hc : core.step s = .refused r := h
      simp only [run, Host.Core.run, h, hc]
      rfl

end Sys2Proof.Machine
end

