-- ==== Sys2Proof/Laws/Words.lean ====
section
/-! SUPPORT. The numbers behind the packed words. -/

namespace Sys2Proof.Machine

/-- The number of a concatenation: the high part shifted by the width of the low part. -/
theorem toNat_append_eq {n m : Nat} (x : BitVec n) (y : BitVec m) :
    (x ++ y).toNat = x.toNat * 2 ^ m + y.toNat := by
  rw [BitVec.toNat_append, ← Nat.shiftLeft_add_eq_or_of_lt y.isLt, Nat.shiftLeft_eq]

theorem packLanes_toNat (lane : Nat → Byte) : (packLanes lane).toNat =
    (lane 0).toNat + 256 * (lane 1).toNat + 65536 * (lane 2).toNat + 16777216 * (lane 3).toNat := by
  have h1 := toNat_append_eq (lane 3) (lane 2)
  have h2 := toNat_append_eq (lane 3 ++ lane 2) (lane 1)
  have h3 := toNat_append_eq (lane 3 ++ lane 2 ++ lane 1) (lane 0)
  refine h3.trans ?_
  rw [h2, h1]
  omega

theorem laneOf_toNat (v : Word) (k : Nat) : (laneOf v k).toNat = v.toNat / 2 ^ (8 * k) % 256 := by
  simp [laneOf, Nat.shiftRight_eq_div_pow]

theorem capsWord_toNat (c : Config) :
    (capsWord c).toNat = c.inCap % 65536 + 65536 * c.ckPresent.toNat := by
  have h1 := toNat_append_eq (0#15) (BitVec.ofBool c.ckPresent)
  have h2 := toNat_append_eq ((0#15) ++ BitVec.ofBool c.ckPresent) (BitVec.ofNat 16 c.inCap)
  refine h2.trans ?_
  rw [h1]
  simp only [BitVec.toNat_ofNat, BitVec.toNat_ofBool]
  omega

theorem zeroHalf_append_toNat (h : Half) : ((0#16) ++ h : Word).toNat = h.toNat := by
  have h1 := toNat_append_eq (0#16) h
  refine h1.trans ?_
  simp

theorem outCapWord_toNat (c : Config) : (outCapWord c).toNat = c.outCap % 65536 := by
  refine (zeroHalf_append_toNat _).trans ?_
  simp

end Sys2Proof.Machine
end

