-- ==== Sys2Proof/Machine/HostProgram.lean ====
section
/-! DEFINITION. The host assembly notation of R62: each line as the bus events it expands to. The CMD lines NOP to
CDECODE are `cmdWrite c (encode i)`. -/

namespace Sys2Proof.Machine

/-- The line `W off, v` (R62). -/
def lineWrite (c : Config) (off : Nat) (v : Word) : Event :=
  .access { addr := c.base + off, width := .w32, dir := .write v }

/-- The line `R off` (R62). -/
def lineRead (c : Config) (off : Nat) : Event :=
  .access { addr := c.base + off, width := .w32, dir := .read }

/-- The line of a command mnemonic (R62). -/
def lineCommand (c : Config) (i : Instr) : Event := cmdWrite c (encode i)

/-- The line WAIT: poll STATUS.BUSY until it is 0 (R62). -/
def lineWait : Event := .poll 0x004 0x00000001 0x00000000

/-- The line CLR: clear DONE and WERR (R62). -/
def lineClear (c : Config) : Event := lineWrite c 0x004 0x00000102

/-- The line `SETLEN n` (R62). -/
def lineSetLen (c : Config) (n : Word) : Event := lineWrite c 0x008 n

/-- The words of LOADB: four bytes a word, lane 0 first, a missing byte taken as 0x00 (R62). -/
def loadWords : List Byte → List Word
  | [] => []
  | [b0] => [packLanes fun k => [b0].getD k 0]
  | [b0, b1] => [packLanes fun k => [b0, b1].getD k 0]
  | [b0, b1, b2] => [packLanes fun k => [b0, b1, b2].getD k 0]
  | b0 :: b1 :: b2 :: b3 :: bs => packLanes (fun k => [b0, b1, b2, b3].getD k 0) :: loadWords bs

/-- The lines of `LOADB b`, and of LOADS on a text's codes (R62). -/
def loadBytes (c : Config) (b : List Byte) : List Event :=
  (loadWords b).zipIdx.map fun (v, w) => lineWrite c (0x1000 + 4 * w) v

end Sys2Proof.Machine
end

