-- ==== Sys2Proof/Tests/Slice0.lean ====
section
/-! SUPPORT. Tests with expected values from the spec (95_test_vectors.md, the encodings of 30_encoding.md), the
smoke test of WellFormed, and for each statement that has hypotheses a witness that meets them. -/

namespace Sys2Proof.Tests

open Sys2Proof.Machine

/-! ### Helpers -/

/-- The ASCII codes of a text, as the spec's LOADS takes them. -/
def codes (t : String) : List Byte := t.toList.map fun c => BitVec.ofNat 8 c.toNat

/-- The stub HZERO: 32 zero bytes for every argument (95_test_vectors.md). -/
def hzero : HashPort := .table [] (Vector.replicate 32 0)

/-- The reference configuration with HASH = HZERO, just after reset. -/
def idleState : State := { State.reset with cfg := { Config.reference with hash := hzero } }

/-- The same block with an input written and IN_LEN set. -/
def loaded (inp : List Byte) : State :=
  { idleState with inBuf := Memory.writeBytes [] 0 inp, inLen := BitVec.ofNat 16 inp.length }

/-- The same block with a command accepted on that input. -/
def running (op : Operation) (wait : Nat) (inp : List Byte) : State :=
  { loaded inp with eng := .busy op wait }

/-- The same block without the checksum validator, OUT_CAP = 88 (program P5). -/
def uncheckedBlock : State :=
  { idleState with cfg := { idleState.cfg with ckPresent := false, outCap := 88 } }

/-- A property of the next state, false where the machine stops. -/
def answers (o : Host.Outcome State Fault Refusal) (p : State → Bool) : Bool :=
  match o with
  | .next t => p t
  | .fault _ => false
  | .refused _ => false

/-- The block shows a result: DONE, ERR = 0, and the bytes of OUT_BUF[0 .. OUT_LEN). -/
def shows (out : List Byte) (t : State) : Bool :=
  statusWord t == 0x00000002 && outputBytes t == some out

/-! ### WellFormed and decoding -/

/-- R57: without the checksum validator CENCODE and CDECODE are ill-formed. -/
theorem test_wf_refuses_cencode : Instr.wf false .cencode = false ∧ Instr.wf true .cencode = true := by decide
theorem test_wf_refuses_cdecode : Instr.wf false .cdecode = false ∧ Instr.wf true .cdecode = true := by decide

/-- The words of 30_encoding.md rules R56 to R58, OP in bits 2 to 0, the other 29 bits zero. -/
theorem test_decode_nop : decodeTableWord 32 0b00000000000000000000000000000000 = some .nop := by decide
theorem test_decode_encode : decodeTableWord 32 0b00000000000000000000000000000001 = some .encode := by decide
theorem test_decode_decode : decodeTableWord 32 0b00000000000000000000000000000010 = some .decode := by decide
theorem test_decode_cencode : decodeTableWord 32 0b00000000000000000000000000000011 = some .cencode := by decide
theorem test_decode_cdecode : decodeTableWord 32 0b00000000000000000000000000000100 = some .cdecode := by decide

/-- 95_test_vectors.md section 2.4: 5, 6, 7, reserved bit 3 and reserved bit 31 are illegal. -/
theorem test_decode_illegal :
    ([0x5, 0x6, 0x7, 0x8, 0x80000001].map (decodeTableWord 32)) = [none, none, none, none, none] := by decide

/-- The step runs the table's word as the first command after reset: ENCODE of the empty input is accepted. -/
theorem test_first_step_runs_encode :
    answers (step (State.reset.withFetchWord 32 1)) (fun t => t.busy && t.port.isEmpty) = true := by decide

/-! ### Commands, one step each (95_test_vectors.md sections 2.1 to 2.4) -/

/-- Section 2.4 row 1: NOP leaves STATUS = 0x00000002 and OUT_LEN = 3. -/
theorem test_nop_keeps_done : answers (exec .nop { idleState with done := true, outLen := 3 })
    (fun t => statusWord t == 0x00000002 && t.outLen == 3) = true := by decide

/-- Section 2.4: a CMD write while BUSY is dropped, STATUS = 0x00000101. -/
theorem test_nop_while_busy : answers (exec .nop (running .encode 1 []))
    (fun t => statusWord t == 0x00000101) = true := by decide

/-- Section 2.4: IN_LEN = 65 > IN_CAP = 64 gives STATUS = 0x00000052 at once. -/
theorem test_encode_length_error : answers (exec .encode { idleState with inLen := 65 })
    (fun t => statusWord t == 0x00000052 && t.outLen == 0) = true := by decide

/-- Section 2.1: 00 01 09 encodes to "15a". -/
theorem test_encode_vector : answers (complete (running .encode 0 [0x00, 0x01, 0x09]))
    (shows (codes "15a")) = true := by decide

/-- Section 2.2: "11z1" decodes to 00 00 0C EA: a '1' after a non-'1' is the digit 0. -/
theorem test_decode_vector : answers (complete (running .decode 0 (codes "11z1")))
    (shows [0x00, 0x00, 0x0C, 0xEA]) = true := by decide

/-- Section 2.2: "z0" fails on its last character, STATUS = 0x00000012. -/
theorem test_decode_invalid : answers (complete (running .decode 0 (codes "z0")))
    (fun t => statusWord t == 0x00000012 && t.outLen == 0) = true := by decide

/-- Section 2.3: with HZERO, 01 02 03 gives "3DUyTaPdy". -/
theorem test_cencode_vector : answers (complete (running .cencode 0 [0x01, 0x02, 0x03]))
    (shows (codes "3DUyTaPdy")) = true := by decide

/-- Section 2.4: without the checksum validator CENCODE is illegal, STATUS = 0x00000042. -/
theorem test_cencode_absent : answers (exec .cencode uncheckedBlock)
    (fun t => statusWord t == 0x00000042) = true := by decide

/-- Section 2.3: with HZERO, "3DUyTaPdy" gives 01 02 03. -/
theorem test_cdecode_vector : answers (complete (running .cdecode 0 (codes "3DUyTaPdy")))
    (shows [0x01, 0x02, 0x03]) = true := by decide

/-- Section 2.3: "3DUyTaPdz" is a mismatch (0x32), and "5R" is too short (0x22). -/
theorem test_cdecode_failures :
    answers (complete (running .cdecode 0 (codes "3DUyTaPdz"))) (fun t => statusWord t == 0x00000032) = true ∧
    answers (complete (running .cdecode 0 (codes "5R"))) (fun t => statusWord t == 0x00000022) = true := by decide

/-! ### Pure vectors, the checksum's byte order, and the bounds -/

/-- Section 2.1: four bytes FF reach MAXENC(4) = 6 characters, "7YXq9G". -/
theorem test_encode_longest : b58encode [0xFF, 0xFF, 0xFF, 0xFF] = codes "7YXq9G" := by decide

/-- R80 and R81: entries of the two tables. -/
theorem test_max_enc : maxEnc 0 = 0 ∧ maxEnc 1 = 2 ∧ maxEnc 10 = 14 ∧ maxEnc 68 = 93 :=
  ⟨by decide, by decide, by decide, by decide⟩
theorem test_max_dec : maxDec 3 = 3 ∧ maxDec 4 = 3 ∧ maxDec 64 = 47 ∧ maxDec 96 = 71 :=
  ⟨by decide, by decide, by decide, by decide⟩

/-- A digest of 32 bytes that starts with the four given bytes. -/
def digestOf (a b c d : Byte) : Digest := ⟨#[a, b, c, d] ++ Array.replicate 28 0, by simp⟩

/-- Section 2.3 [from general knowledge, not in source]: a double hash of the empty payload that starts with
5D F6 E0 E2 gives "3QJmnh". The table returns it for the 32 bytes of the first digest and nothing else. -/
theorem test_checksum_order :
    let h := hashOf (.table [([], digestOf 1 2 3 4), ((digestOf 1 2 3 4).toList, digestOf 0x5D 0xF6 0xE0 0xE2)]
      (digestOf 0 0 0 0))
    chkEncode h [] = codes "3QJmnh" := by decide

/-! ### The bus, one step each (95_test_vectors.md sections 2.4 and 2.5) -/

/-- The data of the last read, or none where the last answer was something else. -/
def lastData (t : State) : Option Word :=
  match t.log with
  | .data v :: _ => some v
  | _ => none

theorem test_read_caps : answers (step { idleState with port := [lineRead idleState.cfg 0x010] })
    (fun t => lastData t == some 0x00010040) = true := by decide

theorem test_read_outcap : answers (step { idleState with port := [lineRead idleState.cfg 0x014] })
    (fun t => lastData t == some 0x00000060) = true := by decide

/-- `W 0x008, 0xABCD0003` stores 3. -/
theorem test_write_in_len : answers (step { idleState with port := [lineWrite idleState.cfg 0x008 0xABCD0003] })
    (fun t => t.inLen == 3) = true := by decide

/-- `W 0x1000, 0x44434241` stores 41 42 43 44. -/
theorem test_write_in_buf :
    answers (step { idleState with port := [lineWrite idleState.cfg 0x1000 0x44434241] })
      (fun t => t.inBuf == [(0, 0x41), (1, 0x42), (2, 0x43), (3, 0x44)]) = true := by decide

/-- `W 0x1040` lies at or beyond IN_CAP = 64: nothing changes. -/
theorem test_write_beyond_in_cap :
    answers (step { idleState with port := [lineWrite idleState.cfg 0x1040 0x11223344] })
      (fun t => t.inBuf.isEmpty && !t.werr) = true := by decide

/-- `R 0x2060` lies at or beyond OUT_CAP = 96: it reads 0. -/
theorem test_read_beyond_out_cap : answers (step { idleState with port := [lineRead idleState.cfg 0x2060] })
    (fun t => lastData t == some 0) = true := by decide

/-- Section 2.4: STATUS = 0x00000112, `W 0x004, 0x00000002` gives 0x00000110. -/
theorem test_status_write_clears_done :
    answers (step { idleState with
        done := true, werr := true, err := .failed .invalidCharacter
        port := [lineWrite idleState.cfg 0x004 0x00000002] })
      (fun t => statusWord t == 0x00000110) = true := by decide

/-- Section 2.4: `UnwrittenInput` at the completion of a command whose input byte 0 was never written. -/
theorem test_unwritten_input : step { running .encode 0 [] with inLen := 1 } = .fault .unwrittenInput := by rfl

/-- Section 2.4: reset while BUSY: STATUS = 0, IN_LEN = 0, OUT_LEN = 0, ENG = IDLE. -/
theorem test_reset_while_busy : answers (step { running .decode 5 (codes "5Q") with port := [.reset] })
    (fun t => statusWord t == 0 && t.inLen == 0 && t.outLen == 0 && !t.busy && t.inBuf.isEmpty) = true := by decide

/-- Program P1: LOADB 00 01 09 is the one line `W 0x1000, 0x00090100`. -/
theorem test_loadb_words : loadBytes idleState.cfg [0x00, 0x01, 0x09] =
    [lineWrite idleState.cfg 0x1000 0x00090100] := by decide

/-! ### Witnesses: each statement's hypotheses are met by a concrete state -/

theorem idle_legal : configLegal idleState.cfg = true := by decide

/-- A finished command with a one-byte result, its next event a read of OUT_BUF. -/
def finishedState : State :=
  { idleState with done := true, outLen := 1, outBuf := [(0, 0x31)], port := [lineRead idleState.cfg 0x2000] }

theorem running_invariant : Invariant (running .cdecode 2 (codes "1")) := by
  constructor <;> first | decide | (intro op w h; decide +revert) | (intro _ _ _ _; rfl)

theorem finished_invariant : Invariant finishedState := by
  constructor <;> first | decide | (intro op w h; cases h)

theorem witness_decode_ok : ∃ ck w i, decodeCmd ck w = .ok i ∧ i.wf ck = true := ⟨false, 2, .decode, rfl, rfl⟩

theorem witness_illegal_words : ∃ (w : Word) (s : State) (e : IllegalWord), s.busy = false ∧ decodeCmd s.cfg.ckPresent w = .error e :=
  ⟨3, uncheckedBlock, .noChecksumUnit, rfl, rfl⟩

theorem witness_illegal_words_busy : ∃ (w : Word) (s : State) (e : IllegalWord), s.busy = true ∧ decodeCmd s.cfg.ckPresent w = .error e :=
  ⟨0x80000001, running .encode 1 [], .reservedBits, rfl, rfl⟩

theorem witness_nop : idleState.busy = false ∧ (running .encode 1 []).busy = true ∧
    (0x8 : Word).extractLsb' 0 3 = 0 ∧ (0x8 : Word).extractLsb' 3 29 ≠ 0 := by decide

theorem witness_busy : (running .encode 1 []).busy = true := by decide

/-- IN_LEN = IN_CAP is accepted. -/
theorem witness_accepted : ∀ p ∈ startingCommands, ({ idleState with inLen := 64 } : State).busy = false ∧
    ({ idleState with inLen := 64 } : State).inLen.toNat ≤ idleState.cfg.inCap ∧
    p.1.wf idleState.cfg.ckPresent = true := by decide

/-- IN_LEN = IN_CAP + 1 is too long, and a checked command is absent where CK_PRESENT = 0. -/
theorem witness_acceptance_error : (∀ p ∈ startingCommands, p.1.wf idleState.cfg.ckPresent = true ∧
      idleState.cfg.inCap < ({ idleState with inLen := 65 } : State).inLen.toNat) ∧
    Instr.wf uncheckedBlock.cfg.ckPresent .cdecode = false ∧ uncheckedBlock.busy = false ∧
    decodeCmd idleState.cfg.ckPresent 7 = .error .reservedOp ∧ 95 < idleState.cfg.outCap := by
  refine ⟨by decide, by decide, by decide, rfl, by decide⟩

/-- An accepted command may carry any prescribed latency, and one running with two host steps to wait and two events
at the port, neither of them reset, meets the premises of both the single step and the run. -/
theorem witness_latency : idleState.busy = false ∧ configLegal idleState.cfg = true ∧
    ∃ s : State, s.cfg = idleState.cfg ∧ s.eng = .busy .encode (1 + 1) ∧ s.port = lineWait :: [lineRead s.cfg 4] ∧
      2 ≤ s.port.length ∧ Event.reset ∉ s.port ∧ lineWait ≠ .reset :=
  ⟨rfl, by decide, { running .encode 2 [0x39] with port := [lineWait, lineRead idleState.cfg 4] }, rfl, rfl, rfl,
    by decide, by decide, by decide⟩

/-- Its first step is the poll, which leaves the command running with one host step less. -/
theorem test_latency_is_waited :
    answers (step { running .encode 2 [0x39] with port := [lineWait, lineRead idleState.cfg 4] })
      (fun t => decide (t.eng = .busy .encode 1) && !t.done) = true := by decide

theorem witness_frame : ∃ t wait, exec .decode (loaded [0x31]) = .next t ∧ t.eng = .busy .decode wait ∧
    (loaded [0x31]).eng = .idle := ⟨_, _, rfl, rfl, rfl⟩

theorem witness_frame_unaccepted : exec .nop idleState = .next idleState ∧ idleState.busy = false := ⟨rfl, rfl⟩

theorem witness_results : configLegal (loaded [0x31]).cfg = true ∧ (loaded [0x31]).cfg.ckPresent = true ∧
    (loaded [0x31]).busy = false ∧ (loaded [0x31]).inLen.toNat ≤ (loaded [0x31]).cfg.inCap ∧
    inputBytes (loaded [0x31]) = some [0x31] := by decide

theorem witness_engine : Invariant (running .cdecode 2 (codes "1")) ∧
    configLegal (running .cdecode 2 (codes "1")).cfg = true ∧
    (running .cdecode 2 (codes "1")).eng = .busy .cdecode 2 ∧ (running .cdecode 2 (codes "1")).port = [] ∧
    inputBytes (running .cdecode 2 (codes "1")) = some (codes "1") ∧
    Event.reset ∉ (running .cdecode 2 (codes "1")).port := ⟨running_invariant, by decide, rfl, rfl, by decide, by decide⟩

/-- The other outcome of the engine's step: one input byte is missing. -/
theorem witness_engine_unwritten : inputBytes { running .encode 0 [] with inLen := 1 } = none ∧
    completionDue { running .encode 0 [] with inLen := 1 } = true ∧
    Memory.read ({ running .encode 0 [] with inLen := 1 } : State).inBuf 0 = none := by decide

theorem witness_engine_idle : idleState.eng = .idle := rfl

/-- Two states that agree on the four things and differ in latency, WERR and OUT_BUF. -/
theorem witness_four_things : ∃ s t : State, s ≠ t ∧ s.eng = .busy .encode 0 ∧ t.eng = .busy .encode 3 ∧
    s.inLen = t.inLen ∧ s.cfg.hash = t.cfg.hash ∧
    (∀ i < s.inLen.toNat, Memory.read s.inBuf i = Memory.read t.inBuf i) ∧ ∃ s', complete s = .next s' :=
  ⟨running .encode 0 [0x39], { running .encode 3 [0x39] with werr := true, outBuf := [(5, 7)] }, by decide, rfl, rfl,
    rfl, rfl, fun _ _ => rfl, _, rfl⟩

/-- The last lane below OUT_CAP. -/
theorem witness_busy_reads : Invariant (running .cdecode 2 (codes "1")) ∧
    (running .cdecode 2 (codes "1")).busy = true ∧ 95 < (running .cdecode 2 (codes "1")).cfg.outCap :=
  ⟨running_invariant, by decide, by decide⟩

/-- A read as the next event, with the engine running and its completion not due. -/
theorem witness_step_access : ∃ s : State, configLegal s.cfg = true ∧ completionDue s = false ∧
    s.eng = .busy .decode (0 + 1) ∧ s.port = .access { addr := s.cfg.base + 4, width := .w32, dir := .read } :: [] :=
  ⟨{ running .decode 1 [] with port := [lineRead idleState.cfg 4] }, by decide, by decide, rfl, rfl⟩

/-- A command and an illegal word as the next event. -/
theorem witness_step_runs : configLegal idleState.cfg = true ∧
    (∃ s, s.cfg = idleState.cfg ∧ completionDue s = false ∧ s.port = cmdWrite s.cfg 1 :: [] ∧
      decodeCmd s.cfg.ckPresent 1 = .ok .encode) ∧
    ∃ s, s.cfg = idleState.cfg ∧ completionDue s = false ∧ s.port = cmdWrite s.cfg 5 :: [] ∧
      decodeCmd s.cfg.ckPresent 5 = .error .reservedOp :=
  ⟨by decide, ⟨{ idleState with port := [cmdWrite idleState.cfg 1] }, rfl, rfl, rfl, rfl⟩,
    { idleState with port := [cmdWrite idleState.cfg 5] }, rfl, rfl, rfl, rfl⟩

/-- A latency that is over with a host event left, and one that is not with none left. -/
theorem witness_engine_turns : configLegal idleState.cfg = true ∧
    ({ running .encode 0 [0x39] with port := [lineWait] } : State).eng = .busy .encode 0 ∧
    (running .encode 5 [0x39]).eng = .busy .encode 5 ∧ (running .encode 5 [0x39]).port = [] ∧
    idleState.runOver := ⟨by decide, rfl, rfl, rfl, rfl, rfl⟩

/-- OUT_CAP one byte below MAXENC(68) = 93 is refused. -/
theorem witness_refused : step { idleState with cfg := { idleState.cfg with outCap := 92 } } =
    .refused .illegalConfiguration := by rfl

theorem witness_reset_event : ∃ s, configLegal s.cfg = true ∧ s.busy = true ∧ completionDue s = false ∧
    s.port = .reset :: [] := ⟨{ running .decode 5 [] with port := [.reset] }, by decide, rfl, by decide, rfl⟩

theorem witness_step_keeps : Invariant finishedState ∧ ∃ t, step finishedState = .next t :=
  ⟨finished_invariant, _, rfl⟩

/-- BUSY is set by an accepted command and cleared by a completion. -/
theorem witness_busy_changes :
    answers (step { loaded [0x31] with port := [cmdWrite idleState.cfg 2] }) (fun t => t.busy) = true ∧
    (loaded [0x31]).busy = false ∧
    answers (step (running .decode 0 [0x31])) (fun t => !t.busy) = true :=
  ⟨by decide, by decide, by decide⟩

/-- DONE is set by a completion and by an error at once, and cleared by acceptance, a STATUS write and reset. -/
theorem witness_done_changes :
    answers (step (running .decode 0 [0x31])) (fun t => t.done) = true ∧
    answers (step { idleState with port := [cmdWrite idleState.cfg 7] }) (fun t => t.done) = true ∧
    answers (step { idleState with done := true, port := [cmdWrite idleState.cfg 1] }) (fun t => !t.done) = true ∧
    answers (step { idleState with done := true, port := [lineWrite idleState.cfg 4 2] }) (fun t => !t.done) = true ∧
    answers (step { idleState with done := true, port := [.reset] }) (fun t => !t.done) = true :=
  ⟨by decide, by decide, by decide, by decide, by decide⟩

/-- WERR is set by each of the three writes while BUSY, and cleared by a STATUS write and by reset. -/
theorem witness_werr_changes :
    answers (step { running .encode 1 [] with port := [cmdWrite idleState.cfg 0] }) (fun t => t.werr) = true ∧
    answers (step { running .encode 1 [] with port := [lineWrite idleState.cfg 8 0] }) (fun t => t.werr) = true ∧
    answers (step { running .encode 1 [] with port := [lineWrite idleState.cfg 0x1FFC 0] }) (fun t => t.werr) = true ∧
    answers (step { idleState with werr := true, port := [lineWrite idleState.cfg 4 0x100] }) (fun t => !t.werr) = true ∧
    answers (step { idleState with werr := true, port := [.reset] }) (fun t => !t.werr) = true :=
  ⟨by decide, by decide, by decide, by decide, by decide⟩

theorem witness_werr_harmless : idleState.busy = false ∧ (∃ t, exec .encode idleState = .next t) ∧
    ∃ t, complete (running .encode 0 [0x39]) = .next t := ⟨rfl, ⟨_, rfl⟩, _, rfl⟩

theorem witness_input_fixed : (running .encode 1 [0x39]).busy = true ∧
    answers (step { running .encode 1 [0x39] with port := [lineWrite idleState.cfg 0x1000 0] })
      (fun t => t.inBuf == [(0, 0x39)]) = true := ⟨rfl, by decide⟩

/-- A completion changes OUT_BUF byte 0. -/
theorem witness_out_buf : Invariant (running .cdecode 2 (codes "1")) ∧ Invariant finishedState ∧
    answers (step (running .encode 0 [0x39])) (fun t => Memory.read t.outBuf 0 == some 0x7A) = true :=
  ⟨running_invariant, finished_invariant, by decide⟩

/-- The ends of the window, and of each of its ranges. -/
theorem witness_register_map : (∀ off ∈ [0x0, 0x4, 0x8, 0xC, 0x10, 0x14, 0x18, 0xFFC, 0x1000, 0x1FFC, 0x2000, 0x3FFC],
    off < 0x4000 ∧ off % 4 = 0) ∧ placeOf 0x18 = .reserved ∧ placeOf 0xFFC = .reserved ∧
    placeOf 0x1FFC = .inBuf 1023 ∧ placeOf 0x3FFC = .outBuf 2047 := by decide

theorem witness_caps : configLegal idleState.cfg = true ∧ configLegal uncheckedBlock.cfg = true := by decide

/-- A byte access inside the window, and a misaligned word. -/
theorem witness_bus_error : ∃ a b : Access, a.addr = idleState.cfg.base + 4 ∧ a.width ≠ .w32 ∧
    b.addr = idleState.cfg.base + 0x1001 ∧ 0x1001 < 0x4000 ∧ 0x1001 % 4 ≠ 0 :=
  ⟨⟨4, .w8, .read⟩, ⟨0x1001, .w32, .write 0⟩, by decide⟩

/-- The first address above the window, and one below a window at 0x4000. -/
theorem witness_outside : idleState.cfg.base + 0x4000 ≤ 0x4000 ∧
    0x3FFF < ({ idleState.cfg with base := 0x4000 } : Config).base := by decide

/-- The last window word and lane of each buffer, and the lanes around IN_CAP, OUT_LEN and OUT_CAP. -/
theorem witness_lanes : Invariant finishedState ∧ 1023 < 1024 ∧ 2047 < 2048 ∧ 3 < 4 ∧
    4 * 15 + 3 < finishedState.cfg.inCap ∧ finishedState.cfg.inCap ≤ 4 * 16 ∧
    4 * 0 + 0 < finishedState.outLen.toNat ∧ finishedState.outLen.toNat ≤ 4 * 0 + 1 ∧
    4 * 23 + 3 < finishedState.cfg.outCap ∧ finishedState.cfg.outCap ≤ 4 * 24 :=
  ⟨finished_invariant, by decide⟩

/-- A window write while BUSY = 0: its last lane below IN_CAP, a byte of another word, and one beyond IN_CAP. -/
theorem witness_in_buf_write : idleState.busy = false ∧ 4 * 15 + 3 < idleState.cfg.inCap ∧ 59 / 4 ≠ 15 ∧
    idleState.cfg.inCap ≤ 64 := by decide

theorem witness_poll : ∃ s, configLegal s.cfg = true ∧ completionDue s = false ∧ s.port = lineWait :: [] ∧
    (0x004 : BitVec 14).toNat % 4 = 0 := ⟨{ idleState with port := [lineWait] }, by decide, rfl, rfl, by decide⟩

/-- The largest values below 256^1 and 58^1, and the least value with a digit. -/
theorem witness_values : 255 < 256 ^ 1 ∧ 57 < 58 ^ 1 ∧ 0 < 1 := by decide

/-- A longest input: IN_LEN = IN_CAP bytes FF. -/
theorem witness_longest : configLegal idleState.cfg = true ∧ idleState.cfg.ckPresent = true ∧
    (List.replicate 64 (0xFF : Byte)).length ≤ idleState.cfg.inCap := by decide

theorem witness_digit_of : digitOf 0x31 = some 0 ∧ digitOf 0x7A = some 57 ∧ (0x49 : Byte) ∉ alphabet ∧
    0x80 ≤ (0x80 : Byte).toNat := by decide

theorem witness_run_length : ∀ i < 2, ([0x31, 0x31, 0x32] : List Byte)[i]? = some 0x31 := by decide

theorem witness_texts : validText (codes "1z") = true ∧ b58decode (codes "1z") = .ok [0x00, 0x39] ∧
    b58decode (codes "0") = .error .invalidCharacter := ⟨by decide, by rfl, by rfl⟩

theorem witness_checked : ∃ p, chkDecode (hashOf hzero) (codes "11111") = .ok p ∧ p.length ≤ idleState.cfg.inCap ∧
    idleState.cfg.ckPresent = true := ⟨[0x00], by rfl, by decide, by decide⟩

/-- The three ways a checked text fails. -/
theorem witness_checked_failures : chkDecode (hashOf hzero) (codes "0") = .error .invalidCharacter ∧
    chkDecode (hashOf hzero) (codes "111") = .error .tooShort ∧
    chkDecode (hashOf hzero) (codes "3DUyTaPdz") = .error .checksumMismatch := ⟨by rfl, by rfl, by rfl⟩

end Sys2Proof.Tests
end

section
/-! PROOFS. The state: its values after reset, the fields of STATUS, CAPS and OUTCAP, what sets and clears BUSY, DONE
and WERR, and the alphabet (R20 to R24, R27, R28, R31, R32, R37). -/

namespace Sys2Proof.Machine

/-! ### The legal parameters and the fields of the packed words -/

/-- The constraints of R7 as a proposition. -/
theorem configLegal_iff (c : Config) : configLegal c = true ↔
    c.base % 0x4000 = 0 ∧ (1 ≤ c.inCap ∧ c.inCap ≤ 4096) ∧
      maxEnc (c.inCap + 4 * c.ckPresent.toNat) ≤ c.outCap ∧ c.outCap ≤ 8192 := by
  simp only [configLegal, Bool.and_eq_true, beq_iff_eq, Nat.ble_eq, and_assoc]

/-- Both capacities of a legal block fit the sixteen bits of their register fields (R7). -/
theorem capacities_lt_of_legal {c : Config} (h : configLegal c = true) : c.inCap < 65536 ∧ c.outCap < 65536 := by
  obtain ⟨-, ⟨-, hin⟩, -, hout⟩ := (configLegal_iff c).1 h
  omega

theorem capsWord_toNat_of_legal {c : Config} (h : configLegal c = true) :
    (capsWord c).toNat = c.inCap + 65536 * c.ckPresent.toNat := by
  rw [capsWord_toNat, Nat.mod_eq_of_lt (capacities_lt_of_legal h).1]

theorem outCapWord_toNat_of_legal {c : Config} (h : configLegal c = true) : (outCapWord c).toNat = c.outCap := by
  rw [outCapWord_toNat, Nat.mod_eq_of_lt (capacities_lt_of_legal h).2]

/-- A bit field of a word as a number. -/
theorem extractLsb'_toNat_eq {w : Nat} (x : BitVec w) (start len : Nat) :
    (x.extractLsb' start len).toNat = x.toNat / 2 ^ start % 2 ^ len := by
  simp [Nat.shiftRight_eq_div_pow]

/-- One bit of a word holds the flag `b` when it is `b` as a number. -/
theorem getLsbD_eq_of_toNat {w : Nat} {x : BitVec w} {i : Nat} {b : Bool} (h : x.toNat / 2 ^ i % 2 = b.toNat) :
    x.getLsbD i = b := by
  rw [BitVec.getLsbD, Nat.testBit_eq_decide_div_mod_eq, h]
  cases b <;> rfl

/-- A bit field holds `y` when it is `y` as a number. -/
theorem extractLsb'_eq_of_toNat {w len : Nat} {x : BitVec w} {start : Nat} {y : BitVec len}
    (h : x.toNat / 2 ^ start % 2 ^ len = y.toNat) : x.extractLsb' start len = y :=
  BitVec.eq_of_toNat_eq ((extractLsb'_toNat_eq x start len).trans h)

theorem extractLsb'_eq_zero_of_toNat {w len : Nat} {x : BitVec w} {start : Nat}
    (h : x.toNat / 2 ^ start % 2 ^ len = 0) : x.extractLsb' start len = 0 :=
  extractLsb'_eq_of_toNat (h.trans BitVec.toNat_zero.symm)

/-- The STATUS word as a number: each field at its place (R20). -/
theorem statusWord_toNat (s : State) : (statusWord s).toNat =
    s.busy.toNat + 2 * s.done.toNat + 16 * (resultBits s.err).toNat + 256 * s.werr.toNat := by
  simp only [statusWord, toNat_append_eq, BitVec.toNat_ofBool, BitVec.toNat_ofNat]
  omega

/-- STATUS is 0 after reset (R20). -/
theorem statusWord_reset : statusWord State.reset = 0 := by decide

/-- Settles O21: the fields are those of the reset state, and the two constant words are numbers of the parameters. -/
theorem resetValues : Obligations.ResetValues := by
  unfold Obligations.ResetValues
  intro c hc s
  have hcaps : (readPlace .caps s).toNat = c.inCap + 65536 * c.ckPresent.toNat := capsWord_toNat_of_legal hc
  have hlength : ((0#16) ++ (0 : Half) : Word) = 0 := by decide
  refine ⟨rfl, rfl, rfl, rfl, statusWord_reset, hlength, hlength, ?_, outCapWord_toNat_of_legal hc,
    fun _ => rfl, fun _ => rfl, rfl⟩
  rw [hcaps]
  omega

/-- Settles O31, by the number that the STATUS word is. -/
theorem statusFieldsAndWrites : Obligations.StatusFieldsAndWrites := by
  unfold Obligations.StatusFieldsAndWrites
  refine ⟨fun s => ?_, statusWord_reset, fun w s => ?_⟩
  · have hword := statusWord_toNat s
    have hbusy := s.busy.toNat_lt
    have hdone := s.done.toNat_lt
    have herr := (resultBits s.err).isLt
    have hwerr := s.werr.toNat_lt
    refine ⟨getLsbD_eq_of_toNat ?_, getLsbD_eq_of_toNat ?_, extractLsb'_eq_zero_of_toNat ?_,
      extractLsb'_eq_of_toNat ?_, getLsbD_eq_of_toNat ?_, extractLsb'_eq_zero_of_toNat ?_⟩ <;> rw [hword] <;> omega
  · have hclear (old bit : Bool) : (old && !bit) = if bit then false else old := by cases bit <;> simp
    show Host.Outcome.next (writeStatus w s) = _
    rw [writeStatus, hclear, hclear]

/-- Settles O35, by the numbers that the two words are in a legal configuration. -/
theorem capsAndOutcapAreConstants : Obligations.CapsAndOutcapAreConstants := by
  unfold Obligations.CapsAndOutcapAreConstants
  refine ⟨fun c hc => ?_, fun _ _ => ⟨rfl, rfl⟩⟩
  obtain ⟨hin, hout⟩ := capacities_lt_of_legal hc
  have hck := c.ckPresent.toNat_lt
  have hcaps := capsWord_toNat_of_legal hc
  have houtCap := outCapWord_toNat_of_legal hc
  refine ⟨?_, getLsbD_eq_of_toNat ?_, extractLsb'_eq_zero_of_toNat ?_, ?_, extractLsb'_eq_zero_of_toNat ?_⟩
  · rw [extractLsb'_toNat_eq, hcaps]; omega
  · rw [hcaps]; omega
  · rw [hcaps]; omega
  · rw [extractLsb'_toNat_eq, houtCap]; omega
  · rw [houtCap]; omega

/-! ### The alphabet -/

theorem mem_alphabet_iff (c : Byte) : c ∈ alphabet ↔ ∃ d : Fin 58, alpha d = c := by
  rw [List.mem_iff_get]
  exact Iff.rfl

/-- `digitOf` finds exactly the digit whose entry the code is (R32). -/
theorem digitOf_eq_some_iff (c : Byte) (d : Fin 58) : digitOf c = some d ↔ alpha d = c :=
  ⟨alpha_of_digitOf, fun h => h ▸ digitOf_alpha d⟩

/-- `digitOf` fails exactly outside the alphabet (R32). -/
theorem digitOf_eq_none_iff (c : Byte) : digitOf c = none ↔ c ∉ alphabet := by
  simp [mem_alphabet_iff, Option.eq_none_iff_forall_ne_some, digitOf_eq_some_iff]

/-- Every alphabet code is ASCII (R31). -/
theorem toNat_lt_of_mem_alphabet : ∀ c ∈ alphabet, c.toNat < 0x80 := by decide

/-- Settles O44, by comparing the 58 entries. -/
theorem alphabetIsTheSpecString : Obligations.AlphabetIsTheSpecString := by
  unfold Obligations.AlphabetIsTheSpecString
  decide

/-- Settles O45: the entries are distinct, and none of them is a listed code or above 0x7F. -/
theorem digitOfInvertsTheAlphabet : Obligations.DigitOfInvertsTheAlphabet := by
  unfold Obligations.DigitOfInvertsTheAlphabet
  refine ⟨digitOf_eq_some_iff, digitOf_eq_none_iff, fun c hc => ?_, fun c hc => ?_⟩
  · have hlisted : ∀ c ∈ ([0x00, 0x20, 0x30, 0x49, 0x4F, 0x6C] : List Byte), c ∉ alphabet := by decide
    exact (digitOf_eq_none_iff c).2 (hlisted c hc)
  · exact (digitOf_eq_none_iff c).2 fun hmem => absurd (toNat_lt_of_mem_alphabet c hmem) (by omega)

/-! ### What a CMD write and a window write do, with the word and the offset that did it -/

/-- Everything a write of the word `w` to CMD can do, with the command that is accepted and the error that ends it at
once (R64): `CommandEffect` with the word. -/
inductive CommandOutcome (w : Word) (s : State) : State → Prop
  | dropped (hb : s.busy = true) : CommandOutcome w s (dropWrite s)
  | nothing (hb : s.busy = false) : CommandOutcome w s s
  | ended (e : CommandError) (hb : s.busy = false) (he : e = .illegalCommand ∨ e = .length) :
      CommandOutcome w s (completeNow e s)
  | accepted (p : Instr × Operation) (hp : p ∈ startingCommands) (hb : s.busy = false)
      (hw : decodeCmd s.cfg.ckPresent w = .ok p.1) (hl : s.inLen.toNat ≤ s.cfg.inCap) :
      CommandOutcome w s (accept p.2 s)

section
variable {w : Word} {s t : State}

theorem issueIllegal_outcome : CommandOutcome w s (issueIllegal s) := by
  unfold issueIllegal
  split_ifs with hb
  · exact .dropped hb
  · exact .ended _ (by simpa using hb) (.inl rfl)

theorem issue_outcome (p : Instr × Operation) (hp : p ∈ startingCommands)
    (hw : decodeCmd s.cfg.ckPresent w = .ok p.1) : CommandOutcome w s (issue p.2 s) := by
  unfold issue
  split_ifs with hb hl
  · exact .dropped hb
  · exact .ended _ (by simpa using hb) (.inr rfl)
  · exact .accepted p hp (by simpa using hb) hw (by omega)

theorem issueChecked_outcome (p : Instr × Operation) (hp : p ∈ startingCommands)
    (hw : decodeCmd s.cfg.ckPresent w = .ok p.1) : CommandOutcome w s (issueChecked p.2 s) := by
  unfold issueChecked
  split_ifs
  · exact issue_outcome p hp hw
  · exact issueIllegal_outcome

theorem commandWrite_outcome (h : commandWrite w s = .next t) : CommandOutcome w s t := by
  unfold commandWrite at h
  split at h
  case h_1 i hw =>
    cases i with
    | nop =>
      obtain rfl := Host.Outcome.next.inj h
      split_ifs with hb
      · exact .dropped hb
      · exact .nothing (by simpa using hb)
    | encode => exact Host.Outcome.next.inj h ▸ issue_outcome (.encode, .encode) (by decide) hw
    | decode => exact Host.Outcome.next.inj h ▸ issue_outcome (.decode, .decode) (by decide) hw
    | cencode => exact Host.Outcome.next.inj h ▸ issueChecked_outcome (.cencode, .cencode) (by decide) hw
    | cdecode => exact Host.Outcome.next.inj h ▸ issueChecked_outcome (.cdecode, .cdecode) (by decide) hw
  case h_2 => exact Host.Outcome.next.inj h ▸ issueIllegal_outcome

/-- While BUSY every CMD write is dropped, whatever its word (R64, R118). -/
theorem commandWrite_busy (w : Word) (hb : s.busy = true) : commandWrite w s = .next (dropWrite s) := by
  obtain ⟨t, ht, heff⟩ := commandWrite_effect w s
  cases heff with
  | dropped => exact ht
  | nothing hidle => simp [hb] at hidle
  | ended _ hidle => simp [hb] at hidle
  | accepted _ hidle => simp [hb] at hidle

end

/-- Everything a 32-bit write of `v` to the offset `off` can do, by the register map (R18): `WriteEffect` with the
offset. -/
inductive OffsetWrite (off : Nat) (v : Word) (s : State) : State → Prop
  | command {t : State} (ho : off = 0x0000) (h : CommandOutcome v s t) : OffsetWrite off v s t
  | status (ho : off = 0x0004) : OffsetWrite off v s (writeStatus v s)
  | inLen (ho : off = 0x0008) : OffsetWrite off v s (writeInLen v s)
  | inBuf (ho : 0x1000 ≤ off ∧ off < 0x2000) : OffsetWrite off v s (writeInWord ((off - 0x1000) / 4) v s)
  | ignored (ho : off ≠ 0x0000 ∧ off ≠ 0x0004 ∧ off ≠ 0x0008 ∧ ¬ (0x1000 ≤ off ∧ off < 0x2000)) :
      OffsetWrite off v s s

theorem writePlace_offsetWrite {off : Nat} {v : Word} {s t : State} (h : writePlace (placeOf off) v s = .next t) :
    OffsetWrite off v s t := by
  unfold placeOf at h
  split_ifs at h with hcmd hstatus hinLen _ _ _ _ hinBuf
  · exact .command hcmd (commandWrite_outcome h)
  · exact Host.Outcome.next.inj h ▸ .status hstatus
  · exact Host.Outcome.next.inj h ▸ .inLen hinLen
  · exact Host.Outcome.next.inj h ▸ .ignored (by omega)
  · exact Host.Outcome.next.inj h ▸ .ignored (by omega)
  · exact Host.Outcome.next.inj h ▸ .ignored (by omega)
  · exact Host.Outcome.next.inj h ▸ .ignored (by omega)
  · exact Host.Outcome.next.inj h ▸ .inBuf ⟨by omega, hinBuf⟩
  · exact Host.Outcome.next.inj h ▸ .ignored (by omega)

section
variable (w : Nat) (v : Word) (s : State)

@[simp] theorem writeInLen_eng : (writeInLen v s).eng = s.eng := by rw [writeInLen_frame]
@[simp] theorem writeInLen_busy : (writeInLen v s).busy = s.busy := by rw [writeInLen_frame]; rfl
@[simp] theorem writeInLen_done : (writeInLen v s).done = s.done := by rw [writeInLen_frame]
@[simp] theorem writeInLen_werr : (writeInLen v s).werr = (s.werr || s.busy) := by rw [writeInLen_frame]
@[simp] theorem writeInWord_eng : (writeInWord w v s).eng = s.eng := by rw [writeInWord_frame]
@[simp] theorem writeInWord_busy : (writeInWord w v s).busy = s.busy := by rw [writeInWord_frame]; rfl
@[simp] theorem writeInWord_done : (writeInWord w v s).done = s.done := by rw [writeInWord_frame]
@[simp] theorem writeInWord_werr : (writeInWord w v s).werr = (s.werr || s.busy) := by rw [writeInWord_frame]

end

/-! ### What a step does to BUSY, DONE and WERR -/

/-- The three flags after a step, with the event that changed them (R20 to R24). -/
inductive FlagStep (s t : State) : Prop
  /-- The completion of the running command (R68). -/
  | completed (hdue : completionDue s = true) (hran : s.busy = true) (hbusy : t.busy = false) (hdone : t.done = true)
      (hwerr : t.werr = s.werr)
  /-- The reset input (R113). -/
  | reset (rest : List Event) (hp : s.port = .reset :: rest) (hbusy : t.busy = false) (hdone : t.done = false)
      (hwerr : t.werr = false)
  /-- A wait, a read or a refused access. -/
  | kept (hbusy : t.busy = s.busy) (hdone : t.done = s.done) (hwerr : t.werr = s.werr)
  /-- A write that meets R39. -/
  | wrote (rest : List Event) (off : Nat) (v : Word) (hp : s.port = lineWrite s.cfg off v :: rest)
      (hoff : off % 4 = 0) (hw : OffsetWrite off v (respond .written (taken rest s)) t)

/-- An access to an address inside the window is one at BASE plus its offset (R38). -/
theorem addr_eq_of_offsetOf {c : Config} {addr off : Nat} (h : offsetOf c addr = some off) :
    addr = c.base + off := by
  unfold offsetOf at h
  split_ifs at h with hwin
  have hoff := Option.some.inj h
  omega

theorem step_flags {s t : State} (h : step s = .next t) : FlagStep s t := by
  obtain ⟨-, heff⟩ := step_effect h
  cases heff with
  | completed op wait inp he hd hi =>
    obtain ⟨-, heng, hdone, hwerr, -⟩ := publishResult_frame (compute op (hashOf s.cfg.hash) inp) s
    exact .completed hd ((busy_eq_true_iff s).2 ⟨op, wait, he⟩) ((busy_eq_false_iff _).2 heng) hdone hwerr
  | waited he hp => exact .kept rfl rfl rfl
  | reset rest hd hp => exact .reset rest hp rfl rfl rfl
  | answered e rest port r n hd hp hport hr => exact .kept (by simp) (by simp) (by simp)
  | wrote a rest off v _ hd hp ho hw hoff hdir ht =>
    obtain ⟨addr, width, dir⟩ := a
    obtain rfl : addr = s.cfg.base + off := addr_eq_of_offsetOf ho
    obtain rfl : width = .w32 := hw
    obtain rfl : dir = .write v := hdir
    exact .wrote rest off v hp hoff (writePlace_offsetWrite ht)

section
variable {off : Nat} {v : Word} {s t : State}

/-- Only an accepted command sets BUSY (R21). -/
theorem OffsetWrite.accepted_of_busy_set (h : OffsetWrite off v s t) (hs : s.busy = false) (ht : t.busy = true) :
    off = 0x0000 ∧ ∃ p ∈ startingCommands, decodeCmd s.cfg.ckPresent v = .ok p.1 ∧
      s.inLen.toNat ≤ s.cfg.inCap ∧ ∃ n, t.eng = .busy p.2 n := by
  cases h with
  | command ho hc =>
    cases hc with
    | accepted p hp _ hw hl => exact ⟨ho, p, hp, hw, hl, _, rfl⟩
    | _ => simp_all
  | _ => simp_all

/-- No write clears BUSY (R21). -/
theorem OffsetWrite.busy_kept (h : OffsetWrite off v s t) (hs : s.busy = true) : t.busy = true := by
  cases h with
  | command _ hc => cases hc <;> simp_all
  | _ => simpa using hs

/-- Only a CMD write that ends at once sets DONE (R22). -/
theorem OffsetWrite.ended_of_done_set (h : OffsetWrite off v s t) (hs : s.done = false) (ht : t.done = true) :
    off = 0x0000 ∧ s.busy = false ∧ t.busy = false ∧ t.outLen = 0 ∧
      (t.err = .failed .illegalCommand ∨ t.err = .failed .length) := by
  cases h with
  | command ho hc =>
    cases hc with
    | ended e hb he => exact ⟨ho, hb, rfl, rfl, he.imp (congrArg _) (congrArg _)⟩
    | _ => simp_all
  | _ => simp_all

/-- Only acceptance and a STATUS write with bit 1 set clear DONE (R22). -/
theorem OffsetWrite.of_done_cleared (h : OffsetWrite off v s t) (hs : s.done = true) (ht : t.done = false) :
    (s.busy = false ∧ t.busy = true) ∨ (off = 0x0004 ∧ v.getLsbD 1 = true) := by
  cases h with
  | command _ hc =>
    cases hc with
    | accepted p _ hb => exact .inl ⟨hb, rfl⟩
    | _ => simp_all
  | status ho => exact .inr ⟨ho, by simpa [hs] using ht⟩
  | _ => simp_all

/-- Only a write to CMD, IN_LEN or the IN_BUF window while BUSY sets WERR (R24). -/
theorem OffsetWrite.dropped_of_werr_set (h : OffsetWrite off v s t) (hs : s.werr = false) (ht : t.werr = true) :
    s.busy = true ∧ (off = 0x0000 ∨ off = 0x0008 ∨ (0x1000 ≤ off ∧ off < 0x2000)) := by
  cases h with
  | command ho hc =>
    cases hc with
    | dropped hb => exact ⟨hb, .inl ho⟩
    | _ => simp_all
  | inLen ho => exact ⟨by simpa [hs] using ht, .inr (.inl ho)⟩
  | inBuf ho => exact ⟨by simpa [hs] using ht, .inr (.inr ho)⟩
  | _ => simp_all

/-- Only a STATUS write with bit 8 set clears WERR (R24). -/
theorem OffsetWrite.of_werr_cleared (h : OffsetWrite off v s t) (hs : s.werr = true) (ht : t.werr = false) :
    off = 0x0004 ∧ v.getLsbD 8 = true := by
  cases h with
  | command _ hc => cases hc <;> simp_all
  | status ho => exact ⟨ho, by simpa [hs] using ht⟩
  | _ => simp_all

end

/-! ### WERR has no part in a command or a completion -/

section
variable (s : State) (b : Bool)

theorem issueIllegal_with_werr (hb : s.busy = false) :
    issueIllegal { s with werr := b } = { issueIllegal s with werr := b } := by
  have hb' : ({ s with werr := b } : State).busy = false := hb
  simp only [issueIllegal, hb, hb', Bool.false_eq_true, if_false]
  rfl

theorem issue_with_werr (op : Operation) (hb : s.busy = false) :
    issue op { s with werr := b } = { issue op s with werr := b } := by
  have hb' : ({ s with werr := b } : State).busy = false := hb
  simp only [issue, hb, hb', Bool.false_eq_true, if_false]
  split_ifs <;> rfl

theorem issueChecked_with_werr (op : Operation) (hb : s.busy = false) :
    issueChecked op { s with werr := b } = { issueChecked op s with werr := b } := by
  unfold issueChecked
  split_ifs
  · exact issue_with_werr s b op hb
  · exact issueIllegal_with_werr s b hb

theorem publishResult_with_werr (r : Except CommandError (List Byte)) :
    publishResult r { s with werr := b } = { publishResult r s with werr := b } := by
  cases r <;> rfl

end

/-- A command given while BUSY = 0 does the same whatever WERR is (R24). -/
theorem exec_with_werr (i : Instr) {s t : State} (b : Bool) (hb : s.busy = false) (h : exec i s = .next t) :
    exec i { s with werr := b } = .next { t with werr := b } := by
  cases i with
  | nop =>
    have hb' : ({ s with werr := b } : State).busy = false := hb
    obtain rfl := Host.Outcome.next.inj h
    simp [exec, execNop, hb, hb']
  | encode => exact Host.Outcome.next.inj h ▸ congrArg _ (issue_with_werr s b .encode hb)
  | decode => exact Host.Outcome.next.inj h ▸ congrArg _ (issue_with_werr s b .decode hb)
  | cencode => exact Host.Outcome.next.inj h ▸ congrArg _ (issueChecked_with_werr s b .cencode hb)
  | cdecode => exact Host.Outcome.next.inj h ▸ congrArg _ (issueChecked_with_werr s b .cdecode hb)

section
variable {s t : State} {op : Operation} {wait : Nat} {inp : List Byte}

/-- Completion is not enabled with ENG = IDLE (R68). -/
theorem complete_of_idle (he : s.eng = .idle) : complete s = .next s := by
  simp only [complete, he]

/-- Completion of a command whose input is written publishes its result (R68). -/
theorem complete_of_input (he : s.eng = .busy op wait) (hi : inputBytes s = some inp) :
    complete s = .next (publishResult (compute op (hashOf s.cfg.hash) inp) s) := by
  simp only [complete, he, hi]

/-- Completion of a command with an unwritten input byte is the fault (R120). -/
theorem complete_of_unwritten (he : s.eng = .busy op wait) (hi : inputBytes s = none) :
    complete s = .fault .unwrittenInput := by
  simp only [complete, he, hi]

/-- A completion does the same whatever WERR is (R24). -/
theorem complete_with_werr (b : Bool) (h : complete s = .next t) :
    complete { s with werr := b } = .next { t with werr := b } := by
  cases hb : s.busy with
  | false =>
    have he := (busy_eq_false_iff s).1 hb
    rw [complete_of_idle he] at h
    have hset : complete { s with werr := b } = .next { s with werr := b } := complete_of_idle he
    rw [hset, Host.Outcome.next.inj h]
  | true =>
    obtain ⟨op, wait, he⟩ := (busy_eq_true_iff s).1 hb
    cases hi : inputBytes s with
    | none => simp [complete_of_unwritten he hi] at h
    | some inp =>
      have hset : complete { s with werr := b } = _ := complete_of_input he hi
      rw [complete_of_input he hi] at h
      rw [hset, ← Host.Outcome.next.inj h]
      exact congrArg _ (publishResult_with_werr s b _)

end

/-! ### The statements about BUSY, DONE and WERR -/

/-- Settles O26, by what a step does to the flags. -/
theorem busyChangesOnlyAsStated : Obligations.BusyChangesOnlyAsStated := by
  unfold Obligations.BusyChangesOnlyAsStated
  refine ⟨fun s t h hs ht => ?_, fun s t h hs ht => ?_, fun s hinv ⟨hbusy, hdone⟩ => ?_⟩
  · cases step_flags h with
    | wrote rest off v hp _ hw =>
      obtain ⟨rfl, p, hmem, hdec, hlen, n, heng⟩ := hw.accepted_of_busy_set (by simpa using hs) ht
      exact ⟨v, rest, p, hp, hmem, by simpa using hdec, by simpa using hlen, n, heng⟩
    | _ => simp_all
  · cases step_flags h with
    | completed hdue => exact .inl hdue
    | reset rest hp => exact .inr ⟨rest, hp⟩
    | kept hbusy => simp [hbusy, hs] at ht
    | wrote rest off v _ _ hw => simp [hw.busy_kept (by simpa using hs)] at ht
  · simp [hinv.busy_not_done hbusy] at hdone

/-- Settles O27, by what a step does to the flags. -/
theorem doneChangesOnlyAsStated : Obligations.DoneChangesOnlyAsStated := by
  unfold Obligations.DoneChangesOnlyAsStated
  refine ⟨fun s t h hs ht => ?_, fun s t h hs ht => ?_⟩
  · cases step_flags h with
    | completed hdue _ hbusy => exact .inl ⟨hdue, hbusy⟩
    | wrote rest off v hp _ hw =>
      obtain ⟨rfl, hidle, hend⟩ := hw.ended_of_done_set (by simpa using hs) ht
      exact .inr ⟨v, rest, hp, by simpa using hidle, hend⟩
    | _ => simp_all
  · cases step_flags h with
    | reset rest hp => exact .inr (.inr ⟨rest, hp⟩)
    | wrote rest off v hp _ hw =>
      rcases hw.of_done_cleared (by simpa using hs) ht with ⟨hidle, hbusy⟩ | ⟨rfl, hbit⟩
      · exact .inl ⟨by simpa using hidle, hbusy⟩
      · exact .inr (.inl ⟨v, rest, hp, hbit⟩)
    | _ => simp_all

/-- Settles O28: the first two clauses by what a step does to the flags, the others operation by operation. -/
theorem werrIsStickyAndHarmless : Obligations.WerrIsStickyAndHarmless := by
  unfold Obligations.WerrIsStickyAndHarmless
  refine ⟨fun s t h hs ht => ?_, fun s t h hs ht => ?_, fun s hb => ?_, fun i s t b => exec_with_werr i b,
    fun s t b => complete_with_werr b⟩
  · cases step_flags h with
    | wrote rest off v hp hoff hw =>
      obtain ⟨hbusy, hplace⟩ := hw.dropped_of_werr_set (by simpa using hs) ht
      exact ⟨by simpa using hbusy, off, v, rest, hp, hoff, hplace⟩
    | _ => simp_all
  · cases step_flags h with
    | reset rest hp => exact .inr ⟨rest, hp⟩
    | wrote rest off v hp _ hw =>
      obtain ⟨rfl, hbit⟩ := hw.of_werr_cleared (by simpa using hs) ht
      exact .inl ⟨v, rest, hp, hbit⟩
    | _ => simp_all
  · exact ⟨fun w => commandWrite_busy w hb, fun v => if_pos hb, fun w v => if_pos hb⟩

end Sys2Proof.Machine
end

section
/-! PROOFS. The IN_BUF window of the bus: the lanes of a word, and what a window write stores (R40, R42). -/

namespace Sys2Proof.Machine

/-! ### The lanes of a bus word -/

/-- Each packed lane is found at its place (R40). -/
theorem laneOf_packLanes (lane : Nat → Byte) {k : Nat} (hk : k < 4) : laneOf (packLanes lane) k = lane k := by
  have h0 := (lane 0).isLt
  have h1 := (lane 1).isLt
  have h2 := (lane 2).isLt
  have h3 := (lane 3).isLt
  apply BitVec.eq_of_toNat_eq
  rw [laneOf_toNat, packLanes_toNat]
  interval_cases k <;> omega

/-- A word is what its four lanes pack to (R40). -/
theorem packLanes_laneOf (v : Word) : packLanes (laneOf v) = v := by
  have hv := v.isLt
  apply BitVec.eq_of_toNat_eq
  simp only [packLanes_toNat, laneOf_toNat]
  omega

/-- Settles O38, by the numbers that a word and its lanes are. -/
theorem lanesAreLittleEndian : Obligations.LanesAreLittleEndian := by
  unfold Obligations.LanesAreLittleEndian
  exact ⟨fun lane _ hk => laneOf_packLanes lane hk, fun v k _ => laneOf_toNat v k, packLanes_laneOf⟩

/-! ### What a window write stores -/

@[simp] theorem storeLane_cfg (i : Nat) (b : Byte) (s : State) : (storeLane i b s).cfg = s.cfg := by
  rw [storeLane_frame]

/-- One lane of a window write is stored at its own index where that is below IN_CAP, and nowhere else (R42). -/
theorem read_storeLane (i a : Nat) (b : Byte) (s : State) : Memory.read (storeLane i b s).inBuf a =
    if a = i ∧ a < s.cfg.inCap then some b else Memory.read s.inBuf a := by
  unfold storeLane
  split_ifs with hcap hstored hstored
  · simp [hstored.1]
  · exact Memory.read_write_other _ _ fun h => hstored ⟨h, h ▸ hcap⟩
  · exact absurd (hstored.1 ▸ hstored.2) hcap
  · rfl

/-- IN_BUF after a window write that is not dropped: the bytes of that word below IN_CAP hold their lanes (R42). -/
theorem read_writeInWord (w : Nat) (v : Word) {s : State} (hidle : s.busy = false) (i : Nat) :
    Memory.read (writeInWord w v s).inBuf i =
      if i / 4 = w ∧ i < s.cfg.inCap then some (laneOf v (i % 4)) else Memory.read s.inBuf i := by
  have hstores : writeInWord w v s = storeLane (4 * w + 3) (laneOf v 3) (storeLane (4 * w + 2) (laneOf v 2)
      (storeLane (4 * w + 1) (laneOf v 1) (storeLane (4 * w) (laneOf v 0) s))) := if_neg (by simp [hidle])
  simp only [hstores, read_storeLane, storeLane_cfg]
  by_cases hw : i / 4 = w
  · obtain ⟨k, hk, rfl⟩ : ∃ k < 4, i = 4 * w + k := ⟨i % 4, Nat.mod_lt _ (by decide), by omega⟩
    have hlane : (4 * w + k) % 4 = k := by omega
    rw [hlane]
    interval_cases k <;> simp [hw]
  · simp [hw, show i ≠ 4 * w by omega, show i ≠ 4 * w + 1 by omega, show i ≠ 4 * w + 2 by omega,
      show i ≠ 4 * w + 3 by omega]

/-- Settles O41, by what IN_BUF holds after the write and the write's frame. -/
theorem inBufWrites : Obligations.InBufWrites := by
  unfold Obligations.InBufWrites
  refine fun s w v => ⟨fun hbusy => if_pos hbusy, fun hidle => ⟨?_, fun k hk hcap => ?_, fun i hi => ?_⟩⟩
  · simpa [hidle] using writeInWord_frame w v s
  · rw [read_writeInWord w v hidle, if_pos ⟨by omega, hcap⟩, show (4 * w + k) % 4 = k by omega]
  · rw [read_writeInWord w v hidle, if_neg (by omega)]

end Sys2Proof.Machine
end

section
/-! PROOFS. The encoding: the fields of a command word, decoding as the inverse of encoding, and the illegal words
(R56 to R58, R60). -/

namespace Sys2Proof.Machine

/-! ### The OP values and the fields of a command word -/

/-- The OP column of R57 read in both directions. -/
theorem opCommand_eq_some_iff (op : BitVec 3) (i : Instr) : opCommand op = some i ↔ op = opOf i := by
  constructor
  · intro h
    unfold opCommand at h
    split_ifs at h with h0 h1 h2 h3 h4 <;> cases h <;> assumption
  · rintro rfl
    cases i <;> rfl

/-- The reserved OP values of R57. -/
theorem opCommand_eq_none_iff (op : BitVec 3) : opCommand op = none ↔ op = 5 ∨ op = 6 ∨ op = 7 := by
  revert op
  decide

/-- A block lacks exactly the two checked commands, and only with CK_PRESENT = 0 (R57). -/
theorem wf_eq_false_iff (ck : Bool) (i : Instr) : i.wf ck = false ↔ ck = false ∧ (i = .cencode ∨ i = .cdecode) := by
  cases i <;> simp [Instr.wf, Instr.needsChecksum]

/-- The OP values of the commands that a block lacks (R57, R60). -/
theorem opCommand_lacking_iff (op : BitVec 3) (ck : Bool) :
    (∃ i, opCommand op = some i ∧ i.wf ck = false) ↔ ck = false ∧ (op = 3 ∨ op = 4) := by
  simp only [opCommand_eq_some_iff, wf_eq_false_iff]
  constructor
  · rintro ⟨i, rfl, hck, rfl | rfl⟩
    · exact ⟨hck, .inl rfl⟩
    · exact ⟨hck, .inr rfl⟩
  · rintro ⟨hck, rfl | rfl⟩
    · exact ⟨.cencode, rfl, hck, .inl rfl⟩
    · exact ⟨.cdecode, rfl, hck, .inr rfl⟩

/-- RSVD and OP make up the whole word (R56). -/
theorem rsvdField_append_opField (w : Word) : rsvdField w ++ opField w = w := by
  apply BitVec.eq_of_toNat_eq
  have hw := w.isLt
  have hfields := toNat_append_eq (rsvdField w) (opField w)
  rw [rsvdField, opField, extractLsb'_toNat_eq, extractLsb'_toNat_eq] at hfields
  refine hfields.trans ?_
  omega

theorem rsvdField_encode (i : Instr) : rsvdField (encode i) = 0 := by cases i <;> rfl

theorem opField_encode (i : Instr) : opField (encode i) = opOf i := by cases i <;> rfl

/-- A word is the word of a command exactly when its fields are (R56, R58). -/
theorem eq_encode_iff (w : Word) (i : Instr) : w = encode i ↔ rsvdField w = 0 ∧ opField w = opOf i := by
  constructor
  · rintro rfl
    exact ⟨rsvdField_encode i, opField_encode i⟩
  · rintro ⟨hrsvd, hop⟩
    rw [← rsvdField_append_opField w, hrsvd, hop]
    rfl

/-! ### What decoding answers -/

section
variable (ck : Bool) {w : Word}

theorem decodeCmd_of_rsvd (hrsvd : rsvdField w ≠ 0) : decodeCmd ck w = .error .reservedBits :=
  if_pos hrsvd

theorem decodeCmd_of_reservedOp (hrsvd : rsvdField w = 0) (hop : opCommand (opField w) = none) :
    decodeCmd ck w = .error .reservedOp := by
  rw [decodeCmd, if_neg (not_not.2 hrsvd), hop]

theorem decodeCmd_of_command {i : Instr} (hrsvd : rsvdField w = 0) (hop : opCommand (opField w) = some i) :
    decodeCmd ck w = if i.wf ck then .ok i else .error .noChecksumUnit := by
  rw [decodeCmd, if_neg (not_not.2 hrsvd), hop]

variable (w)

/-- The words that decode to a command, by their fields (R58). -/
theorem decodeCmd_eq_ok_iff (i : Instr) :
    decodeCmd ck w = .ok i ↔ rsvdField w = 0 ∧ opCommand (opField w) = some i ∧ i.wf ck = true := by
  constructor
  · intro h
    by_cases hrsvd : rsvdField w = 0
    · cases hop : opCommand (opField w) with
      | none => cases (decodeCmd_of_reservedOp ck hrsvd hop).symm.trans h
      | some j =>
        rw [decodeCmd_of_command ck hrsvd hop] at h
        split_ifs at h with hwf
        cases h
        exact ⟨hrsvd, rfl, hwf⟩
    · cases (decodeCmd_of_rsvd ck hrsvd).symm.trans h
  · rintro ⟨hrsvd, hop, hwf⟩
    rw [decodeCmd_of_command ck hrsvd hop, if_pos hwf]

/-- The words that decode to no command, by their fields: one disjunct per reason (R60). -/
theorem decodeCmd_error_iff : (∃ e, decodeCmd ck w = .error e) ↔
    rsvdField w ≠ 0 ∨ opCommand (opField w) = none ∨ ∃ i, opCommand (opField w) = some i ∧ i.wf ck = false := by
  by_cases hrsvd : rsvdField w = 0
  · rw [or_iff_right (not_not.2 hrsvd)]
    cases hop : opCommand (opField w) with
    | none => simp [decodeCmd_of_reservedOp ck hrsvd hop]
    | some i => cases hwf : i.wf ck <;> simp [decodeCmd_of_command ck hrsvd hop, hwf]
  · exact iff_of_true ⟨_, decodeCmd_of_rsvd ck hrsvd⟩ (.inl hrsvd)

end

/-- Settles O1: both sides say that RSVD is 0, that OP is the command's and that the block has the command. -/
theorem decodeIsExactlyEncode : Obligations.DecodeIsExactlyEncode := by
  unfold Obligations.DecodeIsExactlyEncode
  refine ⟨fun ck w i => ?_, rfl, rfl, rfl, rfl, rfl⟩
  rw [decodeCmd_eq_ok_iff, opCommand_eq_some_iff, eq_encode_iff]
  tauto

/-! ### What writing an illegal word does -/

theorem commandWrite_of_error {w : Word} {s : State} {e : IllegalWord} (h : decodeCmd s.cfg.ckPresent w = .error e) :
    commandWrite w s = .next (issueIllegal s) := by
  rw [commandWrite, h]

/-- With BUSY = 0 an acceptance error leaves the engine as it is, which is idle (R21, R66). -/
theorem completeNow_of_idle {s : State} (e : CommandError) (hb : s.busy = false) :
    completeNow e s = { s with done := true, err := .failed e, outLen := 0 } := by
  rw [completeNow, flagsEnded, ← (busy_eq_false_iff s).1 hb]

/-- Settles O2: the reasons of the decoder are those of R60, and the write is the ILLEGAL path of R64. -/
theorem illegalWordsAreExactlyThoseListed : Obligations.IllegalWordsAreExactlyThoseListed := by
  unfold Obligations.IllegalWordsAreExactlyThoseListed
  refine fun w s => ⟨?_, fun ⟨e, he⟩ => ⟨fun hb => ?_, fun hb => ?_⟩⟩
  · show _ ↔ rsvdField w ≠ 0 ∨ opField w = 5 ∨ opField w = 6 ∨ opField w = 7 ∨ _ ∧ (opField w = 3 ∨ opField w = 4)
    rw [decodeCmd_error_iff, opCommand_eq_none_iff, opCommand_lacking_iff, or_assoc, or_assoc]
  · rw [commandWrite_of_error he, issueIllegal, hb, ← completeNow_of_idle _ hb]
    rfl
  · exact commandWrite_busy w hb

end Sys2Proof.Machine
end

section
/-! PROOFS. The lengths of the results: a text or a byte sequence that the engine computes from an input within IN_CAP
fits OUT_BUF (R7, R80, R86, R96). -/

namespace Sys2Proof.Machine

/-! ### The bound MAXENC -/

/-- MAXENC(n) as the least k of R80, with its defining inequality. -/
theorem maxEnc_le_iff (n k : Nat) : maxEnc n ≤ k ↔ 256 ^ n ≤ 58 ^ k := by
  have hfuel : 256 ^ n ≤ 1 * 58 ^ (2 * n) := by
    rw [Nat.one_mul, Nat.pow_mul]
    exact Nat.pow_le_pow_left (by decide) n
  obtain ⟨hreached, hleast⟩ := leastPower_spec (256 ^ n) (2 * n) 1 hfuel
  simp only [Nat.one_mul] at hreached hleast
  constructor
  · intro hk
    exact hreached.trans (Nat.pow_le_pow_right (by decide) hk)
  · intro hk
    by_contra hlt
    exact absurd hk (Nat.not_le.2 (hleast k (Nat.not_le.1 hlt)))

/-- OUT_CAP of a legal block holds the text of any IN_CAP bytes, and of four bytes more with the checksum validator
(R7). -/
theorem capacity_pow_le_of_legal {c : Config} (h : configLegal c = true) :
    256 ^ (c.inCap + 4 * c.ckPresent.toNat) ≤ 58 ^ c.outCap := by
  obtain ⟨-, -, hmax, -⟩ := (configLegal_iff c).1 h
  exact (maxEnc_le_iff _ _).1 hmax

/-! ### The two conversions -/

theorem val256_lt (b : List Byte) : val256 b < 256 ^ b.length := by
  rw [val256_eq_ofDigits]
  refine (Nat.ofDigits_lt_base_pow_length (by decide) fun d hd => ?_).trans_eq (by simp)
  obtain ⟨x, -, rfl⟩ := List.mem_map.1 (List.mem_reverse.1 hd)
  exact x.isLt

theorem val58_lt (d : List (Fin 58)) : val58 d < 58 ^ d.length := by
  rw [val58_eq_ofDigits]
  refine (Nat.ofDigits_lt_base_pow_length (by decide) fun x hx => ?_).trans_eq (by simp)
  obtain ⟨y, -, rfl⟩ := List.mem_map.1 (List.mem_reverse.1 hx)
  exact y.isLt

theorem digits58_length_le_iff (v k : Nat) : (digits58 v).length ≤ k ↔ v < 58 ^ k := by
  rw [digits58_length]
  exact Nat.digits_length_le_iff (by decide) v

theorem bytes256_length_le_iff (v k : Nat) : (bytes256 v).length ≤ k ↔ v < 256 ^ k := by
  rw [bytes256_length]
  exact Nat.digits_length_le_iff (by decide) v

/-- A text is no longer than any k with 58^k ≥ 256^n, for its n bytes (R86). The leading zeros take one character
each, and what follows them the digits of a number below 58^(k - z). -/
theorem b58encode_length_le {b : List Byte} {k : Nat} (hk : 256 ^ b.length ≤ 58 ^ k) : (b58encode b).length ≤ k := by
  have hz := lz_le_length b 0
  have hzk : lz b 0 ≤ k := by
    have hpow : 58 ^ b.length ≤ 58 ^ k := (Nat.pow_le_pow_left (by decide) _).trans hk
    exact hz.trans ((Nat.pow_le_pow_iff_right (by decide)).1 hpow)
  have hrest : 256 ^ (b.length - lz b 0) ≤ 58 ^ (k - lz b 0) := by
    refine Nat.le_of_mul_le_mul_left ?_ (Nat.pow_pos (n := lz b 0) (show 0 < 58 by decide))
    calc 58 ^ lz b 0 * 256 ^ (b.length - lz b 0)
        ≤ 256 ^ lz b 0 * 256 ^ (b.length - lz b 0) := Nat.mul_le_mul_right _ (Nat.pow_le_pow_left (by decide) _)
      _ = 256 ^ b.length := by rw [← Nat.pow_add, Nat.add_sub_cancel' hz]
      _ ≤ 58 ^ k := hk
      _ = 58 ^ lz b 0 * 58 ^ (k - lz b 0) := by rw [← Nat.pow_add, Nat.add_sub_cancel' hzk]
  have hval := val256_lt (b.drop (lz b 0))
  rw [List.length_drop] at hval
  have hdigits := (digits58_length_le_iff _ _).2 (hval.trans_le hrest)
  simp only [b58encode, List.length_append, List.length_replicate, List.length_map]
  omega

/-- A decoded sequence is no longer than its text (R86). -/
theorem length_le_of_b58decode {t out : List Byte} (h : b58decode t = .ok out) : out.length ≤ t.length := by
  unfold b58decode at h
  split_ifs at h
  have hz := lz_le_length t zeroChar
  have hfilter := List.length_filterMap_le digitOf (t.drop (lz t zeroChar))
  rw [List.length_drop] at hfilter
  have hval : val58 ((t.drop (lz t zeroChar)).filterMap digitOf) < 256 ^ (t.length - lz t zeroChar) :=
    calc _ < 58 ^ ((t.drop (lz t zeroChar)).filterMap digitOf).length := val58_lt _
      _ ≤ 58 ^ (t.length - lz t zeroChar) := Nat.pow_le_pow_right (by decide) hfilter
      _ ≤ 256 ^ (t.length - lz t zeroChar) := Nat.pow_le_pow_left (by decide) _
  have hbytes := (bytes256_length_le_iff _ _).2 hval
  rw [← Except.ok.inj h, List.length_append, List.length_replicate]
  omega

/-- What a checked decode answers, from the decoded sequence (R93). -/
theorem chkDecode_eq_ok {hash : List Byte → Digest} {t out : List Byte} (h : chkDecode hash t = .ok out) :
    ∃ raw, b58decode t = .ok raw ∧ 4 ≤ raw.length ∧ out = raw.take (raw.length - 4) := by
  unfold chkDecode at h
  split at h
  · cases h
  · rename_i raw hraw
    dsimp only at h
    split_ifs at h with hshort hmatch
    exact ⟨raw, hraw, by omega, (Except.ok.inj h).symm⟩

theorem length_le_of_chkDecode {hash : List Byte → Digest} {t out : List Byte} (h : chkDecode hash t = .ok out) :
    out.length ≤ t.length := by
  obtain ⟨raw, hraw, -, rfl⟩ := chkDecode_eq_ok h
  exact (List.length_take_le' _ _).trans (length_le_of_b58decode hraw)

/-! ### The result of an operation -/

/-- A legal block's OUT_BUF holds every result: that of any operation it has, on any input within IN_CAP (R68). -/
theorem compute_length_le {c : Config} {op : Operation} {hash : List Byte → Digest} {inp out : List Byte}
    (hc : configLegal c = true) (hlen : inp.length ≤ c.inCap)
    (hck : op = .cencode ∨ op = .cdecode → c.ckPresent = true) (h : compute op hash inp = .ok out) :
    out.length ≤ c.outCap := by
  have hcap := capacity_pow_le_of_legal hc
  have hfits {n : Nat} (hn : n ≤ c.inCap + 4 * c.ckPresent.toNat) : 256 ^ n ≤ 58 ^ c.outCap :=
    (Nat.pow_le_pow_right (by decide) hn).trans hcap
  have hinp : inp.length ≤ c.outCap := by
    have hpow : 58 ^ inp.length ≤ 58 ^ c.outCap :=
      (Nat.pow_le_pow_left (by decide) _).trans (hfits (Nat.le_add_right_of_le hlen))
    exact (Nat.pow_le_pow_iff_right (by decide)).1 hpow
  cases op with
  | encode => exact Except.ok.inj h ▸ b58encode_length_le (hfits (Nat.le_add_right_of_le hlen))
  | decode => exact (length_le_of_b58decode h).trans hinp
  | cencode =>
    refine Except.ok.inj h ▸ b58encode_length_le (hfits ?_)
    simpa [hck (.inl rfl)] using hlen
  | cdecode => exact (length_le_of_chkDecode h).trans hinp

end Sys2Proof.Machine
end

section
/-! PROOFS. The life of a command: the checks of a CMD write, acceptance, the errors that end a command at once, and
completion (R64 to R66, R68, R70, R71). -/

namespace Sys2Proof.Machine

/-! ### What a CMD write does while BUSY = 0 -/

theorem commandWrite_of_ok {w : Word} {s : State} {i : Instr} (h : decodeCmd s.cfg.ckPresent w = .ok i) :
    commandWrite w s = exec i s := by
  rw [commandWrite, h]

theorem exec_nop (s : State) : exec .nop s = .next (if s.busy then dropWrite s else s) := rfl

/-- A starting command that the block has is issued as the operation it latches (R57, R64). -/
theorem exec_of_starting {p : Instr × Operation} (hp : p ∈ startingCommands) {s : State}
    (hwf : p.1.wf s.cfg.ckPresent = true) : exec p.1 s = .next (issue p.2 s) := by
  have hchecked (op : Operation) (hck : s.cfg.ckPresent = true) : issueChecked op s = issue op s := if_pos hck
  simp only [startingCommands, List.mem_cons, List.not_mem_nil, or_false] at hp
  rcases hp with rfl | rfl | rfl | rfl
  · rfl
  · rfl
  · exact congrArg _ (hchecked .cencode hwf)
  · exact congrArg _ (hchecked .cdecode hwf)

/-- A command that the block lacks does what an illegal word does (R60, R66). -/
theorem exec_of_lacking {i : Instr} {s : State} (hwf : i.wf s.cfg.ckPresent = false) :
    exec i s = .next (issueIllegal s) := by
  obtain ⟨hck, hi⟩ := (wf_eq_false_iff _ i).1 hwf
  have hchecked (op : Operation) : issueChecked op s = issueIllegal s := if_neg (by simp [hck])
  rcases hi with rfl | rfl
  · exact congrArg _ (hchecked .cencode)
  · exact congrArg _ (hchecked .cdecode)

section
variable {s : State} (hb : s.busy = false)
include hb

theorem issue_of_idle (op : Operation) :
    issue op s = if s.cfg.inCap < s.inLen.toNat then completeNow .length s else accept op s :=
  if_neg (by simp [hb])

theorem issueIllegal_of_idle : issueIllegal s = completeNow .illegalCommand s := if_neg (by simp [hb])

end

/-! ### The statements about a CMD write -/

/-- Settles O4: the word's decoding decides, and a starting command that decodes is one the block has. -/
theorem commandWriteChecksInOrder : Obligations.CommandWriteChecksInOrder := by
  unfold Obligations.CommandWriteChecksInOrder
  intro w s
  cases hb : s.busy with
  | true => exact commandWrite_busy w hb
  | false =>
    cases hdec : decodeCmd s.cfg.ckPresent w with
    | error e => exact (commandWrite_of_error hdec).trans (congrArg _ (issueIllegal_of_idle hb))
    | ok i =>
      obtain ⟨-, -, hwf⟩ := (decodeCmd_eq_ok_iff _ w i).1 hdec
      have hstart (p : Instr × Operation) (hp : p ∈ startingCommands) (hi : p.1 = i) : commandWrite w s =
          .next (if s.cfg.inCap < s.inLen.toNat then completeNow .length s else accept p.2 s) := by
        subst hi
        rw [commandWrite_of_ok hdec, exec_of_starting hp hwf, issue_of_idle hb]
      cases i with
      | nop => rw [commandWrite_of_ok hdec, exec_nop, hb]; rfl
      | encode => exact hstart (.encode, .encode) (by decide) rfl
      | decode => exact hstart (.decode, .decode) (by decide) rfl
      | cencode => exact hstart (.cencode, .cencode) (by decide) rfl
      | cdecode => exact hstart (.cdecode, .cdecode) (by decide) rfl

/-- Settles O5: NOP's word is the one of the encoder, and a reserved bit makes any other word illegal. -/
theorem nopDoesNothingUnlessBusy : Obligations.NopDoesNothingUnlessBusy := by
  unfold Obligations.NopDoesNothingUnlessBusy
  refine ⟨fun s hb => ?_, fun s hb => ?_, fun ck w => ?_, fun s w hb _ hrsvd => ?_⟩
  · simp [exec_nop, hb]
  · simp [exec_nop, hb, dropWrite]
  · obtain ⟨hdecode, hnop, -⟩ := decodeIsExactlyEncode
    rw [hdecode, hnop]
    exact and_iff_right rfl
  · rw [commandWrite_of_error (decodeCmd_of_rsvd _ hrsvd), issueIllegal_of_idle hb, completeNow_of_idle _ hb]

/-- Settles O7, by the fields of the accepted state. -/
theorem acceptedCommandStartsTheEngine : Obligations.AcceptedCommandStartsTheEngine := by
  unfold Obligations.AcceptedCommandStartsTheEngine
  intro p hp s hb hlen hwf
  refine ⟨accept p.2 s, nextLatency p.2 s, ?_, rfl, rfl, rfl, rfl, rfl, fun _ => rfl, rfl, rfl, rfl, rfl, rfl, rfl⟩
  rw [exec_of_starting hp hwf, issue_of_idle hb, if_neg (by omega)]

/-- Settles O9: each of the three errors is an immediate completion of an idle block. -/
theorem acceptanceErrorEndsTheCommandAtOnce : Obligations.AcceptanceErrorEndsTheCommandAtOnce := by
  unfold Obligations.AcceptanceErrorEndsTheCommandAtOnce
  intro s hb
  refine ⟨fun p hp hwf hlen => ?_, fun i hwf => ?_, fun w ⟨e, he⟩ => ?_, rfl, rfl, fun e i d hi => ?_⟩
  · rw [exec_of_starting hp hwf, issue_of_idle hb, if_pos hlen, completeNow_of_idle _ hb]
  · rw [exec_of_lacking hwf, issueIllegal_of_idle hb, completeNow_of_idle _ hb]
  · rw [commandWrite_of_error he, issueIllegal_of_idle hb, completeNow_of_idle _ hb]
  · simp [outLane, hi]

/-! ### What completion publishes -/

/-- OUT_BUF after a result is published: the result's bytes, and beyond them what it held (R68). -/
theorem read_publish (out : List Byte) (s : State) (a : Nat) : Memory.read (publish out s).outBuf a =
    if a < out.length then out[a]? else Memory.read s.outBuf a := by
  simp [Memory.read_writeBytes]

/-- A result whose length the sixteen bits of OUT_LEN hold. -/
def ResultFits (r : Except CommandError (List Byte)) : Prop := ∀ out, r = .ok out → out.length < 65536

section
variable {r : Except CommandError (List Byte)}

theorem publish_outLen_toNat {out : List Byte} (s : State) (h : out.length < 65536) :
    (publish out s).outLen.toNat = out.length := by
  rw [publish_outLen, BitVec.toNat_ofNat]
  exact Nat.mod_eq_of_lt h

/-- A published result is held (R68, R74). -/
theorem publishResult_holdsResult (hr : ResultFits r) (s : State) : (publishResult r s).holdsResult r := by
  cases r with
  | error e => exact ⟨rfl, rfl, rfl, rfl⟩
  | ok out =>
    have hlen := publish_outLen_toNat s (hr out rfl)
    have hout : outputBytes (publish out s) = some out := by
      rw [outputBytes, hlen]
      exact Memory.readBytes_writeBytes _ _ _
    exact ⟨rfl, rfl, rfl, hlen, hout⟩

/-- Publishing leaves OUT_BUF at and beyond OUT_LEN as it was (R68). -/
theorem publishResult_outBuf_beyond (hr : ResultFits r) {s : State} {a : Nat}
    (ha : (publishResult r s).outLen.toNat ≤ a) :
    Memory.read (publishResult r s).outBuf a = Memory.read s.outBuf a := by
  cases r with
  | error e => rfl
  | ok out =>
    have hlen : out.length ≤ a := publish_outLen_toNat s (hr out rfl) ▸ ha
    exact (read_publish out s a).trans (if_neg (Nat.not_lt.2 hlen))

end

/-- The result bytes that publishing shows are the result's alone, whatever the state was (R71). -/
theorem publishResult_outBuf_agree (r : Except CommandError (List Byte)) (s t : State) {i : Nat}
    (hi : i < (publishResult r s).outLen.toNat) :
    Memory.read (publishResult r t).outBuf i = Memory.read (publishResult r s).outBuf i := by
  cases r with
  | error e => exact absurd hi (Nat.not_lt_zero i)
  | ok out =>
    have hlen : (publish out s).outLen.toNat ≤ out.length := by
      rw [publish_outLen, BitVec.toNat_ofNat]
      exact Nat.mod_le _ _
    have hi : i < out.length := Nat.lt_of_lt_of_le hi hlen
    have hread (u : State) : Memory.read (publishResult (.ok out) u).outBuf i = out[i]? :=
      (read_publish out u i).trans (if_pos hi)
    rw [hread, hread]

/-! ### The input of a completion -/

theorem Memory.readBytes_congr {m m' : Memory} {a n : Nat}
    (h : ∀ i < n, Memory.read m (a + i) = Memory.read m' (a + i)) :
    Memory.readBytes m a n = Memory.readBytes m' a n := by
  refine Option.ext fun bs => ?_
  rw [Memory.readBytes_eq_some_iff, Memory.readBytes_eq_some_iff]
  exact and_congr_right fun _ => forall₂_congr fun i hi => by rw [h i hi]

/-- The input is IN_LEN and the bytes below it (R59). -/
theorem inputBytes_congr {s t : State} (hlen : s.inLen = t.inLen)
    (hbytes : ∀ i < s.inLen.toNat, Memory.read s.inBuf i = Memory.read t.inBuf i) : inputBytes s = inputBytes t := by
  rw [inputBytes, inputBytes, ← hlen]
  exact Memory.readBytes_congr (by simpa using hbytes)

theorem length_of_inputBytes {s : State} {inp : List Byte} (h : inputBytes s = some inp) :
    inp.length = s.inLen.toNat :=
  ((Memory.readBytes_eq_some_iff _ _ _ _).1 h).1

/-- The result of a running command lies inside OUT_BUF, and so inside the sixteen bits of OUT_LEN (R68). -/
theorem compute_resultFits {s : State} {op : Operation} {wait : Nat} {inp : List Byte}
    (hc : configLegal s.cfg = true) (hinv : Invariant s) (he : s.eng = .busy op wait)
    (hi : inputBytes s = some inp) : ResultFits (compute op (hashOf s.cfg.hash) inp) := by
  intro out hout
  have hbusy : s.busy = true := (busy_eq_true_iff s).2 ⟨op, wait, he⟩
  have hlen : inp.length ≤ s.cfg.inCap := (length_of_inputBytes hi).trans_le (hinv.busy_inLen hbusy)
  exact (compute_length_le hc hlen (hinv.busy_checked op wait he) hout).trans_lt (capacities_lt_of_legal hc).2

/-! ### The statements about completion -/

theorem completionDue_of_idle {s : State} (he : s.eng = .idle) : completionDue s = false := by
  simp only [completionDue, he]

/-- Settles O13: what completion publishes is held because every result of a legal block fits OUT_LEN. -/
theorem completionPublishesTheResult : Obligations.CompletionPublishesTheResult := by
  unfold Obligations.CompletionPublishesTheResult
  refine ⟨fun s op wait hc hinv he => ⟨complete_of_unwritten he, fun inp hi => ?_⟩,
    fun s he => ⟨completionDue_of_idle he, complete_of_idle he⟩⟩
  have hfits := compute_resultFits hc hinv he hi
  obtain ⟨hcfg, heng, -, hwerr, hinLen, hinBuf, hport, hlog, hlatencies, hdraws⟩ :=
    publishResult_frame (compute op (hashOf s.cfg.hash) inp) s
  exact ⟨_, complete_of_input he hi, publishResult_holdsResult hfits s, heng, hcfg, hwerr, hinLen, hinBuf, hport,
    hlog, hlatencies, hdraws, fun a => publishResult_outBuf_beyond hfits⟩

/-- Settles O16: the two states have one input, so both publish one result. -/
theorem resultDependsOnFourThings : Obligations.ResultDependsOnFourThings := by
  unfold Obligations.ResultDependsOnFourThings
  intro s t s' op n m hs ht hlen hhash hbytes h
  have hinput := inputBytes_congr hlen hbytes
  cases hi : inputBytes s with
  | none => cases (complete_of_unwritten hs hi).symm.trans h
  | some inp =>
    have hcomplete := complete_of_input ht (hinput.symm.trans hi)
    rw [← hhash] at hcomplete
    obtain rfl := Host.Outcome.next.inj ((complete_of_input hs hi).symm.trans h)
    refine ⟨_, hcomplete, ?_, ?_, ?_, ?_, fun i => publishResult_outBuf_agree _ s t⟩
    all_goals cases compute op (hashOf s.cfg.hash) inp <;> rfl

end Sys2Proof.Machine
end

section
/-! PROOFS. The base converter: leading runs, positional values and minimal digit sequences, and the two conversions as
inverse bijections (R75 to R78, R84 to R86). -/

namespace Sys2Proof.Machine

/-! ### Leading runs -/

/-- The element at index lz, where there is one, is not x. -/
theorem getElem?_lz_ne (s : List Byte) (x : Byte) : s[lz s x]? ≠ some x := by
  rw [← List.head?_drop]
  exact head_drop_lz_ne s x

theorem getElem?_of_lt_lz {s : List Byte} {x : Byte} {i : Nat} (h : i < lz s x) : s[i]? = some x := by
  rw [← replicate_lz_append_drop s x, List.getElem?_append_left (by simpa using h)]
  exact List.getElem?_replicate_of_lt h

/-- Settles O46: a longer run of x would put x where the run stops. -/
theorem leadingRunLength : Obligations.LeadingRunLength := by
  unfold Obligations.LeadingRunLength
  refine fun s x => ⟨lz_le_length s x, fun i hi => getElem?_of_lt_lz hi, fun k _ hk => ?_⟩
  by_contra hlt
  exact getElem?_lz_ne s x (hk _ (Nat.not_le.1 hlt))

/-! ### Positional values -/

/-- The value of a sequence whose elements stand for the digits `f x`, most significant first, as the sum of R76: the
head of n + 1 elements counts base^n. -/
theorem ofDigits_reverse_eq_sum {α : Type} (base : Nat) (f : α → Nat) (d : List α) (x : α) :
    Nat.ofDigits base (d.map f).reverse =
      ∑ i ∈ Finset.range d.length, f (d.getD i x) * base ^ (d.length - 1 - i) := by
  induction d with
  | nil => rfl
  | cons y d ih =>
    rw [List.map_cons, List.reverse_cons, Nat.ofDigits_append, ih, List.length_cons, Finset.sum_range_succ']
    simp [Nat.sub_sub, Nat.add_comm, Nat.mul_comm]

/-- Settles O47: both values are the library's, and so the sum of R76. -/
theorem valuesArePositionalSums : Obligations.ValuesArePositionalSums := by
  unfold Obligations.ValuesArePositionalSums
  refine ⟨fun b => ?_, fun d => ?_, rfl, rfl, fun d => rfl⟩
  · rw [val256_eq_ofDigits, ofDigits_reverse_eq_sum]
  · rw [val58_eq_ofDigits, ofDigits_reverse_eq_sum]

/-! ### Minimal digit sequences -/

section
variable {base : Nat} (hb : 2 ≤ base)
include hb

/-- The loop of R77 from its end: the last digit is the remainder, and before it stand the quotient's digits. -/
theorem minDigits_of_pos {v : Nat} (hv : 0 < v) : minDigits base v = minDigits base (v / base) ++ [v % base] := by
  rw [minDigits_eq_digits hb, minDigits_eq_digits hb, Nat.digits_def' hb hv, List.reverse_cons]

theorem minDigits_eq_nil_iff {v : Nat} : minDigits base v = [] ↔ v = 0 := by
  rw [minDigits_eq_digits hb, List.reverse_eq_nil_iff, Nat.digits_eq_nil_iff_eq_zero]

theorem head_minDigits_ne (v : Nat) : (minDigits base v).head? ≠ some 0 := by
  rw [minDigits_eq_digits hb, List.head?_reverse]
  intro h
  obtain ⟨hne, hlast⟩ := List.mem_getLast?_eq_getLast h
  exact Nat.getLast_digit_ne_zero base ((Nat.digits_ne_nil_iff_ne_zero).1 hne) hlast.symm

theorem ofDigits_minDigits (v : Nat) : Nat.ofDigits base (minDigits base v).reverse = v := by
  rw [minDigits_eq_digits hb, List.reverse_reverse, Nat.ofDigits_digits]

/-- A digit sequence with no leading zero is the minimal one of its value. -/
theorem minDigits_ofDigits {d : List Nat} (hlt : ∀ x ∈ d, x < base) (hhead : d.head? ≠ some 0) :
    minDigits base (Nat.ofDigits base d.reverse) = d := by
  rw [minDigits_eq_digits hb, Nat.digits_ofDigits base hb _ (by simpa using hlt), List.reverse_reverse]
  intro hne hlast
  rw [List.getLast_reverse] at hlast
  exact hhead (hlast ▸ List.head?_eq_some_head _)

end

@[simp] theorem val58_digits58 (v : Nat) : val58 (digits58 v) = v := by
  rw [val58_eq_ofDigits, digits58_val, ofDigits_minDigits (by decide)]

@[simp] theorem val256_bytes256 (v : Nat) : val256 (bytes256 v) = v := by
  rw [val256_eq_ofDigits, bytes256_toNat, ofDigits_minDigits (by decide)]

theorem head_map_ne_iff {α β : Type} {f : α → β} (hf : Function.Injective f) (l : List α) (x : α) :
    (l.map f).head? ≠ some (f x) ↔ l.head? ≠ some x := by
  rw [List.head?_map, ← Option.map_some, (Option.map_injective hf).ne_iff]

theorem head_digits58_ne (v : Nat) : (digits58 v).head? ≠ some 0 := by
  rw [← head_map_ne_iff Fin.val_injective, digits58_val]
  exact head_minDigits_ne (by decide) v

theorem head_bytes256_ne (v : Nat) : (bytes256 v).head? ≠ some 0 := by
  rw [← head_map_ne_iff BitVec.toNat_injective, bytes256_toNat]
  exact head_minDigits_ne (by decide) v

/-- R77 read backwards: digits with no leading zero are the minimal ones of their value. -/
theorem digits58_val58 {d : List (Fin 58)} (hd : d.head? ≠ some 0) : digits58 (val58 d) = d := by
  refine List.map_injective_iff.2 Fin.val_injective ?_
  rw [digits58_val, val58_eq_ofDigits]
  exact minDigits_ofDigits (by decide) (by simp) ((head_map_ne_iff Fin.val_injective d 0).2 hd)

/-- R78 read backwards: bytes with no leading zero are the minimal ones of their value. -/
theorem bytes256_val256 {b : List Byte} (hb : b.head? ≠ some 0) : bytes256 (val256 b) = b := by
  refine List.map_injective_iff.2 BitVec.toNat_injective ?_
  rw [bytes256_toNat, val256_eq_ofDigits]
  have hlt : ∀ x ∈ b.map BitVec.toNat, x < 256 := List.forall_mem_map.2 fun x _ => x.isLt
  exact minDigits_ofDigits (by decide) hlt ((head_map_ne_iff BitVec.toNat_injective b 0).2 hb)

/-- A nonempty sequence that does not start with x starts with something else. -/
theorem exists_head_ne {α : Type} {l : List α} {x : α} (hl : l ≠ []) (hx : l.head? ≠ some x) :
    ∃ y, l.head? = some y ∧ y ≠ x :=
  ⟨l.head hl, List.head?_eq_some_head hl, fun h => hx (h ▸ List.head?_eq_some_head hl)⟩

/-- Settles O48: the facts about minimal digits, at base 58. -/
theorem digitsAreMinimal : Obligations.DigitsAreMinimal := by
  unfold Obligations.DigitsAreMinimal
  refine ⟨rfl, fun v hv => ?_, fun v hv => ⟨exists_head_ne ?_ (head_digits58_ne v), val58_digits58 v⟩⟩
  · rw [digits58, minDigits_of_pos (by decide) hv, List.map_append]
    rfl
  · rw [digits58, Ne, List.map_eq_nil_iff, minDigits_eq_nil_iff (by decide)]
    exact hv.ne'

/-- Settles O49: the facts about minimal digits, at base 256. -/
theorem bytesAreMinimal : Obligations.BytesAreMinimal := by
  unfold Obligations.BytesAreMinimal
  refine ⟨rfl, fun v hv => ?_, fun v hv => ⟨exists_head_ne ?_ (head_bytes256_ne v), val256_bytes256 v⟩⟩
  · rw [bytes256, minDigits_of_pos (by decide) hv, List.map_append]
    rfl
  · rw [bytes256, Ne, List.map_eq_nil_iff, minDigits_eq_nil_iff (by decide)]
    exact hv.ne'

/-! ### The two conversions on their normal forms

A byte sequence is z zero bytes and bytes with no leading zero; a valid text is z zero-characters and the characters of
digits with no leading zero. -/

/-- The text of a digit sequence, one character per digit (R31). -/
def textOf (d : List (Fin 58)) : List Byte := d.map alpha

theorem validText_textOf (d : List (Fin 58)) : validText (textOf d) = true := by
  simp [validText, textOf, digitOf_alpha]

theorem filterMap_digitOf_textOf (d : List (Fin 58)) : (textOf d).filterMap digitOf = d := by
  simp [textOf, List.filterMap_map, digitOf_alpha]

/-- A valid text is the text of its digits. -/
theorem exists_textOf {t : List Byte} (h : validText t = true) : ∃ d, textOf d = t := by
  rw [validText, List.all_eq_true] at h
  show t ∈ Set.range (List.map alpha)
  rw [Set.range_list_map]
  intro c hc
  obtain ⟨d, hd⟩ := Option.isSome_iff_exists.1 (h c hc)
  exact ⟨d, alpha_of_digitOf hd⟩

theorem head_textOf_ne_iff (d : List (Fin 58)) : (textOf d).head? ≠ some zeroChar ↔ d.head? ≠ some 0 :=
  head_map_ne_iff alpha_injective d 0

/-- Zero-characters are the text of zero digits. -/
theorem replicate_zeroChar_append (z : Nat) (d : List (Fin 58)) :
    List.replicate z zeroChar ++ textOf d = textOf (List.replicate z 0 ++ d) := by
  simp [textOf, zeroChar]

theorem exists_eq_zeros_append (b : List Byte) : ∃ z r, r.head? ≠ some 0 ∧ b = List.replicate z 0 ++ r :=
  ⟨_, _, head_drop_lz_ne b 0, (replicate_lz_append_drop b 0).symm⟩

theorem exists_eq_zeroChars_append {t : List Byte} (h : validText t = true) :
    ∃ z d, d.head? ≠ some 0 ∧ t = List.replicate z zeroChar ++ textOf d := by
  obtain ⟨d, rfl⟩ := exists_textOf h
  have hdrop (n : Nat) : textOf (d.drop n) = (textOf d).drop n := List.map_drop
  refine ⟨lz (textOf d) zeroChar, d.drop (lz (textOf d) zeroChar), ?_, ?_⟩
  · rw [← head_textOf_ne_iff, hdrop]
    exact head_drop_lz_ne _ _
  · rw [hdrop, replicate_lz_append_drop]

/-- R82 on the normal form. -/
theorem b58encode_zeros_append (z : Nat) {r : List Byte} (hr : r.head? ≠ some 0) :
    b58encode (List.replicate z 0 ++ r) = List.replicate z zeroChar ++ textOf (digits58 (val256 r)) := by
  simp only [b58encode, lz_replicate_append z 0 r hr, List.drop_left' List.length_replicate]
  rfl

/-- R83 on the normal form. -/
theorem b58decode_zeroChars_append (z : Nat) {d : List (Fin 58)} (hd : d.head? ≠ some 0) :
    b58decode (List.replicate z zeroChar ++ textOf d) = .ok (List.replicate z 0 ++ bytes256 (val58 d)) := by
  have hvalid : validText (List.replicate z zeroChar ++ textOf d) = true := by
    rw [replicate_zeroChar_append, validText_textOf]
  simp only [b58decode, if_pos hvalid, lz_replicate_append z zeroChar _ ((head_textOf_ne_iff d).2 hd),
    List.drop_left' List.length_replicate, filterMap_digitOf_textOf]

theorem b58decode_b58encode (b : List Byte) : b58decode (b58encode b) = .ok b := by
  obtain ⟨z, r, hr, rfl⟩ := exists_eq_zeros_append b
  rw [b58encode_zeros_append z hr, b58decode_zeroChars_append z (head_digits58_ne _), val58_digits58,
    bytes256_val256 hr]

theorem exists_b58decode {t : List Byte} (h : validText t = true) : ∃ b, b58decode t = .ok b ∧ b58encode b = t := by
  obtain ⟨z, d, hd, rfl⟩ := exists_eq_zeroChars_append h
  refine ⟨_, b58decode_zeroChars_append z hd, ?_⟩
  rw [b58encode_zeros_append z (head_bytes256_ne _), val256_bytes256, digits58_val58 hd]

theorem validText_of_b58decode {t b : List Byte} (h : b58decode t = .ok b) : validText t = true := by
  by_contra hinvalid
  rw [b58decode, if_neg hinvalid] at h
  cases h

/-- Settles O53: on the normal forms the zeros map to the zero-characters, and the rest goes through its value. -/
theorem encodeAndDecodeAreInverse : Obligations.EncodeAndDecodeAreInverse := by
  unfold Obligations.EncodeAndDecodeAreInverse
  exact ⟨b58decode_b58encode, fun _ => exists_b58decode, fun b => validText_of_b58decode (b58decode_b58encode b)⟩

/-- Decoding answers b on exactly one text, the encoding of b (R85). -/
theorem b58decode_eq_ok_iff (t b : List Byte) : b58decode t = .ok b ↔ b58encode b = t := by
  refine ⟨fun h => ?_, fun h => h ▸ b58decode_b58encode b⟩
  obtain ⟨b', hb', hencode⟩ := exists_b58decode (validText_of_b58decode h)
  obtain rfl : b = b' := Except.ok.inj (h.symm.trans hb')
  exact hencode

/-! ### Leading zeros and lengths -/

theorem lz_b58encode (b : List Byte) : lz (b58encode b) zeroChar = lz b 0 := by
  obtain ⟨z, r, hr, rfl⟩ := exists_eq_zeros_append b
  rw [b58encode_zeros_append z hr, lz_replicate_append z 0 r hr,
    lz_replicate_append z zeroChar _ ((head_textOf_ne_iff _).2 (head_digits58_ne _))]

/-- Settles O52: a decoded text is the encoding of its result, so both directions are the encoder's. -/
theorem leadingZerosCorrespond : Obligations.LeadingZerosCorrespond := by
  unfold Obligations.LeadingZerosCorrespond
  refine ⟨fun b => ⟨lz_b58encode b, ?_⟩, fun t r h => ?_, fun t h => ?_⟩
  · exact lz_b58encode b ▸ head_drop_lz_ne (b58encode b) zeroChar
  · obtain rfl := (b58decode_eq_ok_iff t r).1 h
    rw [lz_b58encode]
    exact ⟨rfl, head_drop_lz_ne r 0⟩
  · obtain ⟨r, hr, -⟩ := exists_b58decode h
    exact ⟨r, hr⟩

/-- Leading zero bytes do not count in the value (R76). -/
theorem val256_zeros_append (z : Nat) (r : List Byte) : val256 (List.replicate z 0 ++ r) = val256 r := by
  induction z with
  | zero => rfl
  | succ z ih => exact ih

theorem b58encode_length (b : List Byte) : (b58encode b).length = lz b 0 + (digits58 (val256 b)).length := by
  obtain ⟨z, r, hr, rfl⟩ := exists_eq_zeros_append b
  rw [b58encode_zeros_append z hr, lz_replicate_append z 0 r hr, val256_zeros_append]
  simp [textOf]

theorem length_eq_lz_add_bytes256 (b : List Byte) : b.length = lz b 0 + (bytes256 (val256 b)).length := by
  obtain ⟨z, r, hr, rfl⟩ := exists_eq_zeros_append b
  rw [lz_replicate_append z 0 r hr, val256_zeros_append, bytes256_val256 hr]
  simp

/-- The search from 1 answers the least power, where its fuel suffices. -/
theorem leastPower_one_le_iff {base target fuel : Nat} (hb : 0 < base) (hfuel : target ≤ base ^ fuel) (k : Nat) :
    leastPower base target fuel 1 ≤ k ↔ target ≤ base ^ k := by
  obtain ⟨hreached, hleast⟩ := leastPower_spec target fuel 1 (by simpa using hfuel)
  simp only [Nat.one_mul] at hreached hleast
  refine ⟨fun hk => hreached.trans (Nat.pow_le_pow_right hb hk), fun hk => ?_⟩
  by_contra hlt
  exact Nat.not_le.2 (hleast k (Nat.not_le.1 hlt)) hk

/-- MAXDEC(m) as the least j of R81, with its defining inequality. -/
theorem maxDec_le_iff (m k : Nat) : maxDec m ≤ k ↔ 58 ^ m ≤ 256 ^ k :=
  leastPower_one_le_iff (by decide) (Nat.pow_le_pow_left (by decide) m) k

theorem maxDec_le_self (m : Nat) : maxDec m ≤ m := (maxDec_le_iff m m).2 (Nat.pow_le_pow_left (by decide) m)

/-- A number has at most MAXDEC bytes for its count of base-58 digits (R81). -/
theorem bytes256_length_le_maxDec (v : Nat) : (bytes256 v).length ≤ maxDec (digits58 v).length := by
  have hdigits := (digits58_length_le_iff v _).1 le_rfl
  have hmax := (maxDec_le_iff (digits58 v).length _).1 le_rfl
  exact (bytes256_length_le_iff _ _).2 (hdigits.trans_le hmax)

/-- Settles O55: both lengths are the leading run and the minimal sequence of one value, and a legal block holds every
result. -/
theorem conversionLengths : Obligations.ConversionLengths := by
  unfold Obligations.ConversionLengths
  refine ⟨fun b => ⟨b58encode_length b, b58encode_length_le ((maxEnc_le_iff _ _).1 le_rfl)⟩, fun t r h => ?_,
    fun c x hc hx => ⟨?_, fun r hr => ?_⟩⟩
  · obtain rfl := (b58decode_eq_ok_iff t r).1 h
    have hbytes := bytes256_length_le_maxDec (val256 r)
    have hself := maxDec_le_self (digits58 (val256 r)).length
    rw [lz_b58encode, b58encode_length, Nat.add_sub_cancel_left, length_eq_lz_add_bytes256 r]
    omega
  · exact compute_length_le (op := .encode) (hash := hashOf c.hash) hc hx (by simp) rfl
  · exact compute_length_le (op := .decode) (hash := hashOf c.hash) hc hx (by simp) hr

end Sys2Proof.Machine
end

section
/-! PROOFS. The checksum codec: the four checksum bytes, the outcomes of a checked decode, the round trip and the
lengths (R91 to R94, R96). -/

namespace Sys2Proof.Machine

/-! ### The checksum and the checked text -/

/-- Settles O56: the two lists have length 4 and agree at each of the four indices. -/
theorem checksumIsFourBytesOfTheDoubleHash : Obligations.ChecksumIsFourBytesOfTheDoubleHash := by
  unfold Obligations.ChecksumIsFourBytesOfTheDoubleHash
  intro hash p c2
  refine List.ext_getElem (checksum_length hash p) fun i hi _ => ?_
  rw [checksum_length] at hi
  interval_cases i <;> simp [checksum, c2]

/-- A checked text decodes to the payload followed by its checksum (R92). -/
theorem b58decode_chkEncode (hash : List Byte → Digest) (p : List Byte) :
    b58decode (chkEncode hash p) = .ok (p ++ checksum hash p) :=
  b58decode_b58encode (p ++ checksum hash p)

/-- Settles O57: the checked text is the encoding of the whole sequence, so the codec's rules apply to it. -/
theorem checkedTextEncodesPayloadAndChecksum : Obligations.CheckedTextEncodesPayloadAndChecksum := by
  unfold Obligations.CheckedTextEncodesPayloadAndChecksum
  exact fun hash p => ⟨rfl, checksum_length hash p, b58decode_chkEncode hash p, lz_b58encode (p ++ checksum hash p)⟩

/-! ### The outcomes of a checked decode -/

theorem b58decode_of_invalid {t : List Byte} (h : validText t = false) : b58decode t = .error .invalidCharacter :=
  if_neg (by simp [h])

section
variable {hash : List Byte → Digest} {t : List Byte}

theorem chkDecode_of_invalid (h : validText t = false) : chkDecode hash t = .error .invalidCharacter := by
  rw [chkDecode, b58decode_of_invalid h]

theorem chkDecode_of_short {raw : List Byte} (hraw : b58decode t = .ok raw) (hshort : raw.length < 4) :
    chkDecode hash t = .error .tooShort := by
  rw [chkDecode, hraw]
  exact if_pos hshort

/-- A decoded payload with four bytes after it: the comparison with the payload's checksum decides (R93). -/
theorem chkDecode_of_split {p suffix : List Byte} (hraw : b58decode t = .ok (p ++ suffix))
    (hlen : suffix.length = 4) :
    chkDecode hash t = if suffix = checksum hash p then .ok p else .error .checksumMismatch := by
  have hlong : ¬ (p ++ suffix).length < 4 := by simp [hlen]
  have hcut : (p ++ suffix).length - 4 = p.length := by simp [hlen]
  simp only [chkDecode, hraw, if_neg hlong, hcut, List.take_left, List.drop_left, ne_eq, ite_not,
    eq_comm (a := checksum hash p)]
end

/-- A text is invalid, or decodes to fewer than four bytes, or to a payload and four bytes. -/
theorem b58decode_split_cases (t : List Byte) : validText t = false ∨
    (∃ raw, b58decode t = .ok raw ∧ raw.length < 4) ∨
    ∃ p suffix, b58decode t = .ok (p ++ suffix) ∧ suffix.length = 4 := by
  cases hvalid : validText t with
  | false => exact .inl rfl
  | true =>
    obtain ⟨raw, hraw, -⟩ := exists_b58decode hvalid
    by_cases hshort : raw.length < 4
    · exact .inr (.inl ⟨raw, hraw, hshort⟩)
    · refine .inr (.inr ⟨raw.take (raw.length - 4), raw.drop (raw.length - 4), ?_, ?_⟩)
      · rw [List.take_append_drop, hraw]
      · rw [List.length_drop]
        omega

/-- A sequence has one split into a payload and four bytes. -/
theorem append_eq_append_iff_of_length_four {p suffix q tail : List Byte} (hlen : suffix.length = 4)
    (htail : tail.length = 4) : p ++ suffix = q ++ tail ↔ p = q ∧ suffix = tail :=
  ⟨fun h => List.append_inj' h (hlen.trans htail.symm), fun ⟨hp, hs⟩ => hp ▸ hs ▸ rfl⟩

/-- Settles O58: on each kind of text one outcome is the answer, and the conditions of the other three fail. A short
sequence has no split into a payload and four bytes, and a longer one has only one. -/
theorem checkedDecodeDecidesInOrder : Obligations.CheckedDecodeDecidesInOrder := by
  unfold Obligations.CheckedDecodeDecidesInOrder
  intro hash t
  obtain hinvalid | ⟨raw, hraw, hshort⟩ | ⟨p, suffix, hraw, hlen⟩ := b58decode_split_cases t
  · simp [chkDecode_of_invalid hinvalid, b58decode_of_invalid hinvalid, hinvalid]
  · have hnosplit {q tail : List Byte} (h : Except.ok (ε := CommandError) raw = .ok (q ++ tail)) :
        tail.length ≠ 4 := by
      rw [Except.ok.inj h, List.length_append] at hshort
      omega
    rw [chkDecode_of_short hraw hshort, validText_of_b58decode hraw, hraw]
    refine ⟨by simp, by simp [hshort], iff_of_false nofun ?_, fun q => iff_of_false nofun fun h => ?_⟩
    · exact fun ⟨q, tail, h, htail, _⟩ => hnosplit h htail
    · exact hnosplit h (checksum_length hash q)
  · have hpayload (q : List Byte) : p ++ suffix = q ++ checksum hash q ↔ p = q ∧ suffix = checksum hash q :=
      append_eq_append_iff_of_length_four hlen (checksum_length hash q)
    have hmismatch : (∃ q tail, p ++ suffix = q ++ tail ∧ tail.length = 4 ∧ tail ≠ checksum hash q) ↔
        suffix ≠ checksum hash p := by
      refine ⟨fun ⟨q, tail, h, htail, hne⟩ => ?_, fun hne => ⟨p, suffix, rfl, hlen, hne⟩⟩
      obtain ⟨rfl, rfl⟩ := (append_eq_append_iff_of_length_four hlen htail).1 h
      exact hne
    rw [chkDecode_of_split hraw hlen, validText_of_b58decode hraw, hraw]
    simp only [Except.ok.injEq, hpayload, hmismatch]
    split_ifs with hmatch
    · simp +contextual [hmatch]
    · simp +contextual [hmatch, hlen]

/-- Settles O59: the decoded sequence ends with the checksum of what stands before it. -/
theorem checkedRoundTrip : Obligations.CheckedRoundTrip := by
  unfold Obligations.CheckedRoundTrip
  intro hash p
  rw [chkDecode_of_split (b58decode_chkEncode hash p) (checksum_length hash p), if_pos rfl]

/-! ### The lengths -/

/-- MAXENC grows with the number of bytes (R80). -/
theorem maxEnc_mono : Monotone maxEnc := fun m n hmn =>
  (maxEnc_le_iff m _).2 ((Nat.pow_le_pow_right (by decide) hmn).trans ((maxEnc_le_iff n _).1 le_rfl))

/-- Settles O60: a checked text is the encoding of four bytes more, and a payload is the decoded sequence without its
last four. -/
theorem checkedLengths : Obligations.CheckedLengths := by
  unfold Obligations.CheckedLengths
  refine ⟨fun hash p => ?_, fun c p hc hck hp => ⟨maxEnc_mono (by omega), ?_⟩, fun hash t p h => ?_⟩
  · refine b58encode_length_le ((maxEnc_le_iff _ _).1 (le_of_eq ?_))
    rw [List.length_append, checksum_length]
  · obtain ⟨-, -, hcap, -⟩ := (configLegal_iff c).1 hc
    simpa [hck] using hcap
  · obtain ⟨raw, hraw, hlong, rfl⟩ := chkDecode_eq_ok h
    exact ⟨raw, hraw, by simp, hlong, length_le_of_b58decode hraw⟩

end Sys2Proof.Machine
end

section
/-! PROOFS. The hazards: what is dropped while BUSY, and the one fault (R118, R120). -/

namespace Sys2Proof.Machine

/-! ### Writes while BUSY -/

section
variable {s t : State}

/-- The one effect of R64 that is open while BUSY. -/
theorem CommandEffect.eq_dropWrite_of_busy (heff : CommandEffect s t) (hb : s.busy = true) : t = dropWrite s := by
  cases heff with
  | dropped => rfl
  | nothing hidle => simp [hb] at hidle
  | ended _ hidle => simp [hb] at hidle
  | accepted _ hidle => simp [hb] at hidle

/-- While BUSY every command is dropped, one that the block lacks included (R64, R118). -/
theorem exec_busy (i : Instr) (hb : s.busy = true) : exec i s = .next (dropWrite s) := by
  obtain ⟨t, ht, heff⟩ := exec_effect i s
  rw [ht, heff.eq_dropWrite_of_busy hb]

theorem writeInLen_of_busy (v : Word) (hb : s.busy = true) : writeInLen v s = dropWrite s := if_pos hb

theorem writeInWord_of_busy (w : Nat) (v : Word) (hb : s.busy = true) : writeInWord w v s = dropWrite s := if_pos hb

end

/-- Settles O6: each of the four is dropped, and a dropped write sets WERR. -/
theorem writesWhileBusyAreDropped : Obligations.WritesWhileBusyAreDropped := by
  unfold Obligations.WritesWhileBusyAreDropped
  exact fun s hb => ⟨fun i => exec_busy i hb, fun w => commandWrite_busy w hb, fun v => writeInLen_of_busy v hb,
    fun w v => writeInWord_of_busy w v hb⟩

/-! ### The fault of a completion -/

theorem inputBytes_eq_none_iff (s : State) :
    inputBytes s = none ↔ ∃ i < s.inLen.toNat, Memory.read s.inBuf i = none := by
  simpa [inputBytes] using Memory.readBytes_eq_none_iff s.inBuf 0 s.inLen.toNat

/-- Completion faults on a running engine whose input is not wholly written, and on nothing else (R68, R120). -/
theorem complete_eq_fault_iff (s : State) (r : Fault) :
    complete s = .fault r ↔ r = .unwrittenInput ∧ s.busy = true ∧ inputBytes s = none := by
  cases hb : s.busy with
  | false => simp [complete_of_idle ((busy_eq_false_iff s).1 hb)]
  | true =>
    obtain ⟨op, wait, he⟩ := (busy_eq_true_iff s).1 hb
    cases hi : inputBytes s with
    | none => simp [complete_of_unwritten he hi]
    | some inp => simp [complete_of_input he hi]

/-- Where no completion is due the machine turns without a fault: it waits or serves the host's next event (R50). -/
theorem exists_turn_of_not_due {s : State} (hdue : completionDue s = false) : ∃ t, turn s = .next t := by
  cases hp : s.port with
  | nil => exact ⟨s, by simp [turn, hdue, hp]⟩
  | cons e rest =>
    obtain ⟨t, ht, -⟩ := serve_effect e rest s hdue hp
    exact ⟨t, by simp [turn, hdue, hp, ht]⟩

/-- The inversion of a step that faults: it is a completion that is due. -/
theorem completion_of_step_fault {s : State} {r : Fault} (h : step s = .fault r) :
    completionDue s = true ∧ complete s = .fault r := by
  have hturn : turn s = .fault r := by
    unfold step at h
    split_ifs at h
    exact h
  cases hdue : completionDue s with
  | true => exact ⟨rfl, (if_pos hdue).symm.trans hturn⟩
  | false =>
    obtain ⟨t, ht⟩ := exists_turn_of_not_due hdue
    rw [ht] at hturn
    contradiction

/-- Settles O15, by the inversions of a completion and of a step that fault. -/
theorem unwrittenInputIsTheOnlyFault : Obligations.UnwrittenInputIsTheOnlyFault := by
  unfold Obligations.UnwrittenInputIsTheOnlyFault
  refine ⟨fun s r => ?_, fun s r => completion_of_step_fault⟩
  rw [complete_eq_fault_iff, inputBytes_eq_none_iff]

end Sys2Proof.Machine
end

section
/-! PROOFS. What every step keeps: the invariant of the block's state, the parameters, the input of a running command,
and the bytes of OUT_BUF (R21, R27 to R30, R50, R54, R65, R68). -/

namespace Sys2Proof.Machine

/-! ### The invariant of an idle block -/

/-- IN_BUF and OUT_BUF are canonical and lie inside their capacities (R29, R30). -/
structure BuffersFit (s : State) : Prop where
  inBuf_wf : Memory.wf s.inBuf
  outBuf_wf : Memory.wf s.outBuf
  inBuf_bound : ∀ c ∈ s.inBuf, c.1 < s.cfg.inCap
  outBuf_bound : ∀ c ∈ s.outBuf, c.1 < s.cfg.outCap

theorem Invariant.buffersFit {s : State} (h : Invariant s) : BuffersFit s :=
  ⟨h.inBuf_wf, h.outBuf_wf, h.inBuf_bound, h.outBuf_bound⟩

/-- With ENG = IDLE the invariant is about the buffers and the published result alone. -/
theorem invariant_of_idle {s : State} (he : s.eng = .idle) (hbuf : BuffersFit s)
    (hfailed : s.err ≠ .ok → s.outLen = 0) (hlen : s.outLen.toNat ≤ s.cfg.outCap)
    (hstored : ∀ i < s.outLen.toNat, (Memory.read s.outBuf i).isSome = true) : Invariant s where
  inBuf_wf := hbuf.inBuf_wf
  outBuf_wf := hbuf.outBuf_wf
  inBuf_bound := hbuf.inBuf_bound
  outBuf_bound := hbuf.outBuf_bound
  busy_not_done := by simp [(busy_eq_false_iff s).2 he]
  busy_err := by simp [(busy_eq_false_iff s).2 he]
  busy_outLen := by simp [(busy_eq_false_iff s).2 he]
  busy_outBuf := by simp [(busy_eq_false_iff s).2 he]
  busy_inLen := by simp [(busy_eq_false_iff s).2 he]
  busy_checked := by simp [he]
  failed_outLen := hfailed
  outLen_bound := hlen
  out_stored := hstored

/-- An idle block with OUT_LEN = 0 shows no result that could break the invariant. -/
theorem invariant_of_no_result {s : State} (he : s.eng = .idle) (hzero : s.outLen = 0) (hbuf : BuffersFit s) :
    Invariant s :=
  invariant_of_idle he hbuf (fun _ => hzero) (by simp [hzero]) (by simp [hzero])

/-- Settles O23: an idle block with empty buffers. -/
theorem resetMeetsTheInvariant : Obligations.ResetMeetsTheInvariant := by
  unfold Obligations.ResetMeetsTheInvariant
  exact fun c => invariant_of_no_result rfl rfl ⟨.nil, .nil, by simp [State.reset], by simp [State.reset]⟩

/-! ### Steps that leave the block as it was -/

/-- `t` differs from `s` at most in the host's side, WERR, the wait of the running command and a cleared DONE. -/
structure BlockKept (s t : State) : Prop where
  cfg : t.cfg = s.cfg
  running : ∀ op n, t.eng = .busy op n → ∃ m, s.eng = .busy op m
  done : s.done = false → t.done = false
  err : t.err = s.err
  inLen : t.inLen = s.inLen
  outLen : t.outLen = s.outLen
  inBuf : t.inBuf = s.inBuf
  outBuf : t.outBuf = s.outBuf

section
variable (s : State)

theorem blockKept_dropWrite : BlockKept s (dropWrite s) :=
  ⟨rfl, fun _ n he => ⟨n, he⟩, id, rfl, rfl, rfl, rfl, rfl⟩

theorem blockKept_writeStatus (w : Word) : BlockKept s (writeStatus w s) :=
  ⟨rfl, fun _ n he => ⟨n, he⟩, fun h => by simp [h], rfl, rfl, rfl, rfl, rfl⟩

/-- One host step leaves a running command's operation as it is. -/
theorem running_of_taken (rest : List Event) {op : Operation} {n : Nat} (h : (taken rest s).eng = .busy op n) :
    ∃ m, s.eng = .busy op m := by
  rw [taken_eng] at h
  split at h <;> cases h <;> exact ⟨_, ‹_›⟩

theorem blockKept_answered (n : Nat) (r : Response) (rest : List Event) :
    BlockKept s (spend n (respond r (taken rest s))) where
  cfg := taken_cfg rest s
  running _ _ he := running_of_taken s rest he
  done h := (taken_done rest s).trans h
  err := taken_err rest s
  inLen := taken_inLen rest s
  outLen := taken_outLen rest s
  inBuf := taken_inBuf rest s
  outBuf := taken_outBuf rest s

theorem blockKept_written (rest : List Event) : BlockKept s (respond .written (taken rest s)) :=
  blockKept_answered s 0 .written rest

end

/-- The invariant says nothing about what such a step changes, and a cleared DONE cannot break it. -/
theorem BlockKept.invariant {s t : State} (k : BlockKept s t) (h : Invariant s) : Invariant t := by
  have hbusy (hb : t.busy = true) : s.busy = true := by
    obtain ⟨op, n, he⟩ := (busy_eq_true_iff t).1 hb
    obtain ⟨m, hm⟩ := k.running op n he
    exact (busy_eq_true_iff s).2 ⟨op, m, hm⟩
  refine
    { inBuf_wf := k.inBuf ▸ h.inBuf_wf
      outBuf_wf := k.outBuf ▸ h.outBuf_wf
      inBuf_bound := ?_
      outBuf_bound := ?_
      busy_not_done := fun hb => k.done (h.busy_not_done (hbusy hb))
      busy_err := fun hb => k.err.trans (h.busy_err (hbusy hb))
      busy_outLen := fun hb => k.outLen.trans (h.busy_outLen (hbusy hb))
      busy_outBuf := fun hb => k.outBuf.trans (h.busy_outBuf (hbusy hb))
      busy_inLen := fun hb => ?_
      busy_checked := fun op n he hop => ?_
      failed_outLen := fun he => k.outLen.trans (h.failed_outLen (k.err ▸ he))
      outLen_bound := ?_
      out_stored := ?_ }
  · rw [k.inBuf, k.cfg]; exact h.inBuf_bound
  · rw [k.outBuf, k.cfg]; exact h.outBuf_bound
  · rw [k.inLen, k.cfg]; exact h.busy_inLen (hbusy hb)
  · obtain ⟨m, hm⟩ := k.running op n he
    exact k.cfg ▸ h.busy_checked op m hm hop
  · rw [k.outLen, k.cfg]; exact h.outLen_bound
  · rw [k.outLen, k.outBuf]; exact h.out_stored

/-! ### Writes keep the invariant -/

section
variable {s t : State}

/-- Acceptance clears the result and latches what the invariant asks of a running command (R65). -/
theorem invariant_accept {op : Operation} (h : Invariant s) (hl : s.inLen.toNat ≤ s.cfg.inCap)
    (hc : op = .cencode ∨ op = .cdecode → s.cfg.ckPresent = true) : Invariant (accept op s) where
  inBuf_wf := h.inBuf_wf
  outBuf_wf := .nil
  inBuf_bound := h.inBuf_bound
  outBuf_bound := by simp
  busy_not_done _ := rfl
  busy_err _ := rfl
  busy_outLen _ := rfl
  busy_outBuf _ := rfl
  busy_inLen _ := hl
  busy_checked op' n he := by
    obtain rfl : op = op' := (Engine.busy.inj he).1
    exact hc
  failed_outLen _ := rfl
  outLen_bound := Nat.zero_le _
  out_stored i hi := absurd hi (Nat.not_lt_zero i)

theorem CommandEffect.invariant (heff : CommandEffect s t) (h : Invariant s) : Invariant t := by
  cases heff with
  | dropped => exact (blockKept_dropWrite s).invariant h
  | nothing => exact h
  | ended e => exact invariant_of_no_result rfl rfl ⟨h.inBuf_wf, h.outBuf_wf, h.inBuf_bound, h.outBuf_bound⟩
  | accepted op _ hl hc => exact invariant_accept h hl hc

/-- A stored lane lies below IN_CAP (R42). -/
theorem BuffersFit.storeLane (h : BuffersFit s) (i : Nat) (b : Byte) : BuffersFit (storeLane i b s) := by
  unfold Machine.storeLane
  split_ifs with hi
  · refine ⟨Memory.write_wf h.inBuf_wf i b, h.outBuf_wf, fun c hc => ?_, h.outBuf_bound⟩
    rcases Memory.mem_write hc with rfl | hc
    · exact hi
    · exact h.inBuf_bound c hc
  · exact h

theorem BuffersFit.writeInWord (h : BuffersFit s) (w : Nat) (v : Word) : BuffersFit (writeInWord w v s) := by
  unfold Machine.writeInWord
  split_ifs
  · exact ⟨h.inBuf_wf, h.outBuf_wf, h.inBuf_bound, h.outBuf_bound⟩
  · exact (((h.storeLane _ _).storeLane _ _).storeLane _ _).storeLane _ _

/-- With BUSY = 0 the invariant bounds neither IN_LEN nor which bytes of IN_BUF are written. -/
theorem Invariant.of_input_changed (h : Invariant s) (hidle : s.eng = .idle) (hbuf : BuffersFit t)
    (ht : t = { s with inLen := t.inLen, inBuf := t.inBuf, werr := t.werr }) : Invariant t := by
  rw [ht]
  rw [ht] at hbuf
  exact invariant_of_idle hidle hbuf h.failed_outLen h.outLen_bound h.out_stored

theorem invariant_writeInLen (h : Invariant s) (v : Word) : Invariant (writeInLen v s) := by
  cases hb : s.busy with
  | true => exact writeInLen_of_busy v hb ▸ (blockKept_dropWrite s).invariant h
  | false =>
    refine h.of_input_changed ((busy_eq_false_iff s).1 hb) ?_ ?_
    · rw [writeInLen_frame]
      exact ⟨h.inBuf_wf, h.outBuf_wf, h.inBuf_bound, h.outBuf_bound⟩
    · rw [writeInLen_frame]

theorem invariant_writeInWord (h : Invariant s) (w : Nat) (v : Word) : Invariant (writeInWord w v s) := by
  cases hb : s.busy with
  | true => exact writeInWord_of_busy w v hb ▸ (blockKept_dropWrite s).invariant h
  | false =>
    refine h.of_input_changed ((busy_eq_false_iff s).1 hb) (h.buffersFit.writeInWord w v) ?_
    rw [writeInWord_frame]

theorem WriteEffect.invariant {p : Place} {v : Word} (heff : WriteEffect s p v t) (h : Invariant s) :
    Invariant t := by
  cases heff with
  | command _ _ hcmd => exact hcmd.invariant h
  | status => exact (blockKept_writeStatus s v).invariant h
  | inLen => exact invariant_writeInLen h v
  | inBuf w => exact invariant_writeInWord h w v
  | ignored => exact h

/-! ### Completion and the step keep the invariant -/

/-- A published result that fits OUT_BUF is stored in it, from index 0 on (R68). -/
theorem invariant_publishResult {r : Except CommandError (List Byte)} (hc : configLegal s.cfg = true)
    (h : Invariant s) (hr : ∀ out, r = .ok out → out.length ≤ s.cfg.outCap) : Invariant (publishResult r s) := by
  cases r with
  | error e => exact invariant_of_no_result rfl rfl ⟨h.inBuf_wf, h.outBuf_wf, h.inBuf_bound, h.outBuf_bound⟩
  | ok out =>
    have hcap := hr out rfl
    have hlen : (publishResult (.ok out) s).outLen.toNat = out.length :=
      publish_outLen_toNat s (hcap.trans_lt (capacities_lt_of_legal hc).2)
    refine invariant_of_idle rfl ⟨h.inBuf_wf, Memory.writeBytes_wf h.outBuf_wf 0 out, h.inBuf_bound, fun c hc => ?_⟩
      (fun hne => absurd rfl hne) (hlen.trans_le hcap) fun i hi => ?_
    · rcases Memory.mem_writeBytes hc with ⟨-, hlast⟩ | hold
      · exact (Nat.zero_add out.length ▸ hlast).trans_le hcap
      · exact h.outBuf_bound c hold
    · rw [hlen] at hi
      have hread : Memory.read (publishResult (.ok out) s).outBuf i = out[i]? :=
        (read_publish out s i).trans (if_pos hi)
      simp [hread, hi]

/-- The result of a running command lies inside OUT_BUF (R68). -/
theorem compute_length_le_outCap (hc : configLegal s.cfg = true) (h : Invariant s) {op : Operation} {wait : Nat}
    {inp out : List Byte} (he : s.eng = .busy op wait) (hi : inputBytes s = some inp)
    (hout : compute op (hashOf s.cfg.hash) inp = .ok out) : out.length ≤ s.cfg.outCap := by
  have hbusy : s.busy = true := (busy_eq_true_iff s).2 ⟨op, wait, he⟩
  have hlen : inp.length ≤ s.cfg.inCap := (length_of_inputBytes hi).trans_le (h.busy_inLen hbusy)
  exact compute_length_le hc hlen (h.busy_checked op wait he) hout

end

/-- A write that meets R39, as the effect it has on the state with the event taken from the port. -/
theorem writeEffect_of_writePlace {p : Place} {v : Word} {s t : State} (h : writePlace p v s = .next t) :
    WriteEffect s p v t := by
  obtain ⟨u, hu, heff⟩ := writePlace_effect p v s
  exact Host.Outcome.next.inj (hu.symm.trans h) ▸ heff

/-- Settles O24, by the effects a step can have: it leaves the block as it was, or completes a command, or is a reset,
or is a write. -/
theorem stepKeepsTheInvariant : Obligations.StepKeepsTheInvariant := by
  unfold Obligations.StepKeepsTheInvariant
  intro s t hinv h
  obtain ⟨hc, heff⟩ := step_effect h
  cases heff with
  | completed op wait inp he hd hi =>
    exact invariant_publishResult hc hinv fun out => compute_length_le_outCap hc hinv he hi
  | waited => exact hinv
  | reset rest => exact invariant_of_no_result rfl rfl ⟨.nil, .nil, by simp, by simp⟩
  | answered e rest port r n => exact (blockKept_answered s n r port).invariant hinv
  | wrote a rest off v _ hd hp ho hw hoff hdir ht =>
    exact (writeEffect_of_writePlace ht).invariant ((blockKept_written s rest).invariant hinv)

/-! ### The parameters, the input of a running command, and OUT_BUF -/

section
variable {s t : State} {p : Place} {v : Word}

/-- No write changes a parameter, and none changes OUT_BUF but by acceptance, which empties it (R30, R65). -/
theorem WriteEffect.cfg_outBuf (heff : WriteEffect s p v t) :
    t.cfg = s.cfg ∧ (t.outBuf = s.outBuf ∨ t.outBuf = []) := by
  cases heff with
  | command _ _ hcmd => cases hcmd <;> simp
  | inLen => rw [writeInLen_frame]; exact ⟨rfl, .inl rfl⟩
  | inBuf => rw [writeInWord_frame]; exact ⟨rfl, .inl rfl⟩
  | _ => exact ⟨rfl, .inl rfl⟩

/-- While BUSY a write changes at most DONE and WERR: all but a STATUS write are dropped (R20, R118). -/
theorem WriteEffect.eq_of_busy (heff : WriteEffect s p v t) (hb : s.busy = true) :
    t = { s with done := t.done, werr := t.werr } := by
  cases heff with
  | command _ _ hcmd => rw [hcmd.eq_dropWrite_of_busy hb]; rfl
  | inLen => rw [writeInLen_of_busy v hb]; rfl
  | inBuf w => rw [writeInWord_of_busy w v hb]; rfl
  | _ => rfl

end

theorem step_cfg {s t : State} (h : step s = .next t) : t.cfg = s.cfg := by
  obtain ⟨-, heff⟩ := step_effect h
  cases heff with
  | completed op wait inp => exact (publishResult_frame _ s).1
  | waited => rfl
  | reset => rfl
  | answered e rest port r n => exact (blockKept_answered s n r port).cfg
  | wrote a rest off v _ hd hp ho hw hoff hdir ht =>
    exact (writeEffect_of_writePlace ht).cfg_outBuf.1.trans (blockKept_written s rest).cfg

/-- Settles O25: CAPS and OUTCAP are words of the parameters. -/
theorem parametersNeverChange : Obligations.ParametersNeverChange := by
  unfold Obligations.ParametersNeverChange
  intro s t h
  rw [step_cfg h]
  exact ⟨rfl, rfl, rfl⟩

/-- While BUSY a step other than reset leaves the input as it is (R50, R54). -/
theorem step_input_of_busy {s t : State} (h : step s = .next t) (hb : s.busy = true) :
    (t.inLen = s.inLen ∧ t.inBuf = s.inBuf) ∨ ∃ rest, s.port = .reset :: rest := by
  obtain ⟨-, heff⟩ := step_effect h
  cases heff with
  | completed op wait inp =>
    obtain ⟨-, -, -, -, hinLen, hinBuf, -⟩ := publishResult_frame (compute op (hashOf s.cfg.hash) inp) s
    exact .inl ⟨hinLen, hinBuf⟩
  | waited => exact .inl ⟨rfl, rfl⟩
  | reset rest _ hp => exact .inr ⟨rest, hp⟩
  | answered e rest port r n =>
    have hkept := blockKept_answered s n r port
    exact .inl ⟨hkept.inLen, hkept.inBuf⟩
  | wrote a rest off v _ hd hp ho hw hoff hdir ht =>
    have hkept := blockKept_written s rest
    rw [(writeEffect_of_writePlace ht).eq_of_busy (by simpa using hb)]
    exact .inl ⟨hkept.inLen, hkept.inBuf⟩

/-- Settles O29: the step leaves IN_BUF as a whole. -/
theorem inputIsFixedWhileBusy : Obligations.InputIsFixedWhileBusy := by
  unfold Obligations.InputIsFixedWhileBusy
  intro s t h hb
  exact (step_input_of_busy h hb).imp_left fun ⟨hinLen, hinBuf⟩ => ⟨hinLen, fun a => by rw [hinBuf]⟩

/-- Settles O30: a completion leaves OUT_BUF beyond OUT_LEN, and any other step leaves it whole or empty. -/
theorem onlyCompletionWritesOutBuf : Obligations.OnlyCompletionWritesOutBuf := by
  unfold Obligations.OnlyCompletionWritesOutBuf
  intro s t a hinv h hne
  obtain ⟨hc, heff⟩ := step_effect h
  cases heff with
  | completed op wait inp he hd hi =>
    refine .inr ⟨hd, ?_⟩
    by_contra hbeyond
    exact hne (publishResult_outBuf_beyond (compute_resultFits hc hinv he hi) (Nat.not_lt.1 hbeyond))
  | waited => exact absurd rfl hne
  | reset => exact .inl rfl
  | answered e rest port r n => exact absurd (by rw [(blockKept_answered s n r port).outBuf]) hne
  | wrote a rest off v _ hd hp ho hw hoff hdir ht =>
    obtain ⟨-, hsame | hempty⟩ := (writeEffect_of_writePlace ht).cfg_outBuf
    · exact absurd (by rw [hsame, (blockKept_written s rest).outBuf]) hne
    · exact .inl (by rw [hempty, Memory.read_nil])

end Sys2Proof.Machine
end

section
/-! PROOFS. The bus: what a read and a write of each offset do, BUS_ERROR, addresses outside the window, IN_LEN and the
lanes of the two windows (R18, R25, R39, R41, R43, R48, R101). -/

namespace Sys2Proof.Machine

/-! ### One access to the window -/

theorem offsetOf_base_add (c : Config) {off : Nat} (hoff : off < 0x4000) : offsetOf c (c.base + off) = some off := by
  rw [offsetOf, if_pos ⟨Nat.le_add_right _ _, by omega⟩, Nat.add_sub_cancel_left]

section
variable (s : State) {off : Nat} (hoff : off < 0x4000)
include hoff

/-- A 32-bit read at a multiple of 4 answers the word there (R39). -/
theorem access_read_word (halign : off % 4 = 0) :
    access { addr := s.cfg.base + off, width := .w32, dir := .read } s =
      .next (spend 4 (respond (.data (readPlace (placeOf off) s)) s)) := by
  simp [access, offsetOf_base_add s.cfg hoff, readAnswer, readData, halign]

/-- A 32-bit write at a multiple of 4 writes the place there (R39). -/
theorem access_write_word (v : Word) (halign : off % 4 = 0) :
    access { addr := s.cfg.base + off, width := .w32, dir := .write v } s =
      writePlace (placeOf off) v (respond .written s) := by
  simp [access, offsetOf_base_add s.cfg hoff, halign]

/-- A read of another width or at another offset answers BUS_ERROR with free data (R39). -/
theorem access_read_busError {width : Width} (hbad : width ≠ .w32 ∨ off % 4 ≠ 0) :
    access { addr := s.cfg.base + off, width := width, dir := .read } s =
      .next (spend 4 (respond (.busError (some (Config.unspecWord s.draws))) s)) := by
  simp only [access, offsetOf_base_add s.cfg hoff]
  split_ifs with hwidth
  · have halign : off % 4 ≠ 0 := hbad.resolve_left (not_not.2 hwidth)
    simp [readAnswer, readData, halign]
  · rfl

/-- A write of another width or at another offset is not done (R39). -/
theorem access_write_busError {width : Width} (v : Word) (hbad : width ≠ .w32 ∨ off % 4 ≠ 0) :
    access { addr := s.cfg.base + off, width := width, dir := .write v } s =
      .next (respond (.busError none) s) := by
  simp only [access, offsetOf_base_add s.cfg hoff]
  exact if_neg (by tauto)

end

/-- Settles O36, by the two directions of a refused access, and the writes that are dropped. -/
theorem busErrorChangesNothing : Obligations.BusErrorChangesNothing := by
  unfold Obligations.BusErrorChangesNothing
  refine ⟨fun s a off haddr hoff hbad => ?_, fun s hb => ?_⟩
  · obtain ⟨_, width, dir⟩ := a
    obtain rfl := haddr
    cases dir with
    | read => exact access_read_busError s hoff hbad
    | write v => exact access_write_busError s hoff v hbad
  · exact ⟨fun w => commandWrite_busy w hb, fun v => writeInLen_of_busy v hb, fun w v => writeInWord_of_busy w v hb⟩

/-- Settles O37: the address has no offset in the window. -/
theorem outsideTheWindowIsNotDecoded : Obligations.OutsideTheWindowIsNotDecoded := by
  unfold Obligations.OutsideTheWindowIsNotDecoded
  intro s a houtside
  have hnone : offsetOf s.cfg a.addr = none := if_neg (by omega)
  rw [access, hnone]
  rfl

/-! ### The register map -/

/-- The sixteen bits of a length register read with zeros above (R25, R26). -/
theorem zeroHalf_append_eq (h : Half) : ((0#16) ++ h : Word) = h.zeroExtend 32 := by
  apply BitVec.eq_of_toNat_eq
  rw [zeroHalf_append_toNat, BitVec.toNat_setWidth, Nat.mod_eq_of_lt (h.isLt.trans (by decide))]

/-- Settles O33, place by place of the register map. -/
theorem readsFollowTheRegisterMap : Obligations.ReadsFollowTheRegisterMap := by
  unfold Obligations.ReadsFollowTheRegisterMap
  intro s off hoff halign
  rw [access_read_word s hoff halign, placeOf, ← zeroHalf_append_eq, ← zeroHalf_append_eq]
  split_ifs <;> rfl

/-- Settles O34, place by place of the register map. -/
theorem writesFollowTheRegisterMap : Obligations.WritesFollowTheRegisterMap := by
  unfold Obligations.WritesFollowTheRegisterMap
  intro s off v hoff halign
  rw [access_write_word s hoff v halign, placeOf]
  split_ifs
  any_goals omega
  all_goals rfl

/-- Settles O39, by the two states of BUSY and the number that the register's word is. -/
theorem inLenStoresSixteenBits : Obligations.InLenStoresSixteenBits := by
  unfold Obligations.InLenStoresSixteenBits
  intro s v
  have hword : (readPlace .inLen s).toNat = s.inLen.toNat := zeroHalf_append_toNat s.inLen
  have hlt := s.inLen.isLt
  refine ⟨fun hidle => ?_, writeInLen_of_busy v, extractLsb'_eq_of_toNat ?_, extractLsb'_eq_zero_of_toNat ?_⟩
  · rw [writeInLen, if_neg (by simp [hidle]), BitVec.setWidth_eq_extractLsb' (by decide)]
  · rw [hword]; omega
  · rw [hword]; omega

/-! ### The lanes of the two windows -/

theorem placeOf_inBuf {w : Nat} (hw : w < 1024) : placeOf (0x1000 + 4 * w) = .inBuf w := by
  simp only [placeOf]
  split_ifs
  any_goals omega
  rw [Nat.add_sub_cancel_left, Nat.mul_div_cancel_left w (by decide)]

theorem placeOf_outBuf (w : Nat) : placeOf (0x2000 + 4 * w) = .outBuf w := by
  simp only [placeOf]
  split_ifs
  any_goals omega
  rw [Nat.add_sub_cancel_left, Nat.mul_div_cancel_left w (by decide)]

/-- Settles O40: each lane of the packed word is the lane of its byte. -/
theorem inBufReads : Obligations.InBufReads := by
  unfold Obligations.InBufReads
  refine fun s w hw => ⟨?_, fun k hk => ?_⟩
  · rw [access_read_word s (by omega) (by omega), placeOf_inBuf hw]
    rfl
  · rw [readInWord, laneOf_packLanes _ hk, inLane]
    cases Memory.read s.inBuf (4 * w + k) <;> rfl

theorem laneOf_readOutWord (s : State) (w : Nat) {k : Nat} (hk : k < 4) :
    laneOf (readPlace (.outBuf w) s) k = outLane s (4 * w + k) (s.draws + k) := by
  rw [readPlace, readOutWord, laneOf_packLanes _ hk]

section
variable {s : State} {i : Nat} (d : Nat)

/-- Below OUT_LEN a lane is the stored result byte (R43). -/
theorem outLane_of_lt_outLen (hinv : Invariant s) (hi : i < s.outLen.toNat) :
    some (outLane s i d) = Memory.read s.outBuf i := by
  obtain ⟨b, hb⟩ := Option.isSome_iff_exists.1 (hinv.out_stored i hi)
  rw [outLane, if_pos (hi.trans_le hinv.outLen_bound), if_pos hi, hb, Option.getD_some]

/-- From OUT_LEN up to OUT_CAP a lane is a free value (R43). -/
theorem outLane_of_outLen_le (hlen : s.outLen.toNat ≤ i) (hcap : i < s.cfg.outCap) :
    outLane s i d = Config.unspecByte d := by
  rw [outLane, if_pos hcap, if_neg (Nat.not_lt.2 hlen)]

/-- At and beyond OUT_CAP a lane is 0 (R43). -/
theorem outLane_of_outCap_le (hcap : s.cfg.outCap ≤ i) : outLane s i d = 0 :=
  if_neg (Nat.not_lt.2 hcap)

end

/-- Settles O42, by the three ranges of a lane's byte. -/
theorem outBufReads : Obligations.OutBufReads := by
  unfold Obligations.OutBufReads
  refine ⟨fun s w k hinv _ hk => ?_, fun s w v _ => ?_⟩
  · rw [laneOf_readOutWord s w hk]
    exact ⟨placeOf_outBuf w, outLane_of_lt_outLen _ hinv, outLane_of_outLen_le _, outLane_of_outCap_le _,
      hinv.busy_outLen⟩
  · rw [placeOf_outBuf]
    rfl

/-- Settles O18: OUT_LEN is 0 while BUSY, so no lane lies below it. -/
theorem nothingIsVisibleWhileBusy : Obligations.NothingIsVisibleWhileBusy := by
  unfold Obligations.NothingIsVisibleWhileBusy
  intro s hinv hb
  have hzero := hinv.busy_outLen hb
  refine ⟨?_, fun i d hcap => outLane_of_outLen_le d (by simp [hzero]) hcap⟩
  rw [readPlace, hzero]
  rfl

end Sys2Proof.Machine
end

section
/-! PROOFS. The commands: the words of the opcode table, the result codes, what a command leaves unchanged, and the way
of each starting command to its result (R57, R64 to R68, R70, R88, R89, R97 to R99). -/

namespace Sys2Proof.Machine

/-- Settles O3, by decoding each of the ten words. -/
theorem specWordsDecode : Obligations.SpecWordsDecode := by
  unfold Obligations.SpecWordsDecode
  exact ⟨rfl, rfl, rfl, rfl, rfl, rfl, rfl, rfl, rfl, rfl⟩

theorem resultBits_toNat_le (c : ResultCode) : (resultBits c).toNat ≤ 5 := by
  cases c with
  | ok => decide
  | failed e => cases e <;> decide

/-- Settles O32, code by code. -/
theorem resultCodes : Obligations.ResultCodes := by
  unfold Obligations.ResultCodes
  exact ⟨rfl, rfl, rfl, rfl, rfl, rfl, resultBits_toNat_le⟩

/-- Settles O10, by the effects a command can have: only acceptance changes the engine, and it empties OUT_BUF. -/
theorem commandFrame : Obligations.CommandFrame := by
  unfold Obligations.CommandFrame
  intro i s t h
  obtain ⟨u, hu, heff⟩ := exec_effect i s
  obtain rfl : u = t := Host.Outcome.next.inj (hu.symm.trans h)
  obtain ⟨hcfg, hinLen, hinBuf, hport, hlog⟩ := heff.frame
  refine ⟨hcfg, hinLen, fun a => by rw [hinBuf], hport, hlog, fun hb => ?_, heff.eq_dropWrite_of_busy,
    fun heng => ?_, fun heng => ?_⟩
  · cases heff <;> simp_all
  · cases heff with
    | accepted op hb => simp [(busy_eq_false_iff s).1 hb] at heng
    | _ => exact ⟨rfl, rfl, fun _ => rfl⟩
  · cases heff with
    | accepted => exact fun _ => rfl
    | ended e hb => simp [(busy_eq_false_iff s).1 hb] at heng
    | _ => exact absurd rfl heng

/-- A starting command that the block has is accepted with BUSY = 0 and IN_LEN within IN_CAP (R64). -/
theorem exec_accepted {s : State} {p : Instr × Operation} (hp : p ∈ startingCommands)
    (hwf : p.1.wf s.cfg.ckPresent = true) (hb : s.busy = false) (hlen : s.inLen.toNat ≤ s.cfg.inCap) :
    exec p.1 s = .next (accept p.2 s) := by
  rw [exec_of_starting hp hwf, issue_of_idle hb, if_neg (Nat.not_lt.2 hlen)]

/-- A starting command given with BUSY = 0 and a written input within IN_CAP is accepted, and its completion shows the
result of that input (R64, R65, R67, R68). -/
theorem starting_reaches_result {s : State} {inp : List Byte} {p : Instr × Operation} (hp : p ∈ startingCommands)
    (hwf : p.1.wf s.cfg.ckPresent = true) (hc : configLegal s.cfg = true) (hb : s.busy = false)
    (hlen : s.inLen.toNat ≤ s.cfg.inCap) (hi : inputBytes s = some inp) :
    ∃ t u, exec p.1 s = .next t ∧ complete t = .next u ∧
      u.holdsResult (compute p.2 (hashOf s.cfg.hash) inp) ∧
      u.inLen = s.inLen ∧ u.inBuf = s.inBuf ∧ u.werr = s.werr := by
  have hcomplete : complete (accept p.2 s) =
      .next (publishResult (compute p.2 (hashOf s.cfg.hash) inp) (accept p.2 s)) := complete_of_input rfl hi
  have hchecked : p.2 = .cencode ∨ p.2 = .cdecode → s.cfg.ckPresent = true := by
    simp only [startingCommands, List.mem_cons, List.not_mem_nil, or_false] at hp
    rcases hp with rfl | rfl | rfl | rfl <;> simp_all [Instr.wf, Instr.needsChecksum]
  have hfits : ResultFits (compute p.2 (hashOf s.cfg.hash) inp) := fun out hout =>
    (compute_length_le hc ((length_of_inputBytes hi).trans_le hlen) hchecked hout).trans_lt
      (capacities_lt_of_legal hc).2
  obtain ⟨-, -, -, hwerr, hinLen, hinBuf, -⟩ :=
    publishResult_frame (compute p.2 (hashOf s.cfg.hash) inp) (accept p.2 s)
  exact ⟨_, _, exec_accepted hp hwf hb hlen, hcomplete, publishResult_holdsResult hfits _, hinLen, hinBuf, hwerr⟩

/-- Settles O11: the two commands every block has. -/
theorem converterCommandsReachTheirResults : Obligations.ConverterCommandsReachTheirResults := by
  unfold Obligations.ConverterCommandsReachTheirResults
  exact fun s inp hc hb hlen hi =>
    ⟨starting_reaches_result (p := (.encode, .encode)) (by decide) rfl hc hb hlen hi,
      starting_reaches_result (p := (.decode, .decode)) (by decide) rfl hc hb hlen hi⟩

/-- Settles O12: the two commands of a block with the checksum validator. -/
theorem checkedCommandsReachTheirResults : Obligations.CheckedCommandsReachTheirResults := by
  unfold Obligations.CheckedCommandsReachTheirResults
  exact fun s inp hc hck hb hlen hi =>
    ⟨starting_reaches_result (p := (.cencode, .cencode)) (by decide) hck hc hb hlen hi,
      starting_reaches_result (p := (.cdecode, .cdecode)) (by decide) hck hc hb hlen hi⟩

end Sys2Proof.Machine
end

section
/-! PROOFS. The base converter: the greatest lengths of both conversions, and the texts that decoding rejects (R80, R81,
R83). -/

namespace Sys2Proof.Machine

/-- What R80 and R81 say alike: the least `m` whose power of the base reaches `target` is the greatest digit count
below it, and `target - 1` has that many digits. -/
theorem longest_below {base target m : Nat} {length : Nat → Nat} (htarget : 0 < target)
    (hm : ∀ k, m ≤ k ↔ target ≤ base ^ k) (hlength : ∀ v k, length v ≤ k ↔ v < base ^ k) :
    target ≤ base ^ m ∧ (∀ k < m, base ^ k < target) ∧ (∀ v < target, length v ≤ m) ∧
      length (target - 1) = m := by
  have hreached : target ≤ base ^ m := (hm m).1 le_rfl
  refine ⟨hreached, fun k hk => ?_, fun v hv => (hlength v m).2 (hv.trans_le hreached), ?_⟩
  · exact Nat.lt_of_not_le fun hle => absurd ((hm k).2 hle) (Nat.not_le.2 hk)
  · refine eq_of_forall_ge_iff fun k => ?_
    rw [hlength, hm]
    omega

/-- Settles O50: MAXENC and the digit count are the two sides of one inequality. -/
theorem maxEncIsTheLongestEncoding : Obligations.MaxEncIsTheLongestEncoding := by
  unfold Obligations.MaxEncIsTheLongestEncoding
  exact fun n => longest_below (Nat.pow_pos (by decide)) (maxEnc_le_iff n) digits58_length_le_iff

/-- Settles O51: MAXDEC and the byte count are the two sides of one inequality. -/
theorem maxDecIsTheLongestDecoding : Obligations.MaxDecIsTheLongestDecoding := by
  unfold Obligations.MaxDecIsTheLongestDecoding
  exact fun m => longest_below (Nat.pow_pos (by decide)) (maxDec_le_iff m) bytes256_length_le_iff

/-- A text is invalid exactly when one of its codes is not in the alphabet (R14). -/
theorem validText_eq_false_iff (t : List Byte) : validText t = false ↔ ∃ c ∈ t, c ∉ alphabet := by
  simp [validText, ← digitOf_eq_none_iff]

/-- Settles O54: a valid text decodes, and an invalid one has the one error. -/
theorem decodeFailsExactlyOnInvalidTexts : Obligations.DecodeFailsExactlyOnInvalidTexts := by
  unfold Obligations.DecodeFailsExactlyOnInvalidTexts
  intro t e
  rw [← validText_eq_false_iff]
  cases hvalid : validText t with
  | false => simp [b58decode_of_invalid hvalid, eq_comm]
  | true =>
    obtain ⟨r, hr, -⟩ := exists_b58decode hvalid
    simp [hr]

end Sys2Proof.Machine
end

section
/-! PROOFS. The machine's turn: completion, the host's next event, refusal, and how a running command comes to its end
(R7, R50, R54, R62, R63, R69, R113). -/

namespace Sys2Proof.Machine

/-! ### Which turn a step is -/

section
variable {s : State} (hc : configLegal s.cfg = true)

theorem completionDue_of_running {op : Operation} {n : Nat} (he : s.eng = .busy op n) :
    completionDue s = (n == 0 || s.port.isEmpty) := by
  rw [completionDue, he]

include hc

theorem step_of_due (hd : completionDue s = true) : step s = complete s := by
  rw [step, if_pos hc, turn, if_pos hd]

theorem step_of_event {e : Event} {rest : List Event} (hd : completionDue s = false) (hp : s.port = e :: rest) :
    step s = serve e rest s := by
  simp [step, turn, hc, hd, hp]

theorem step_of_run_over (hover : s.runOver) : step s = .next s := by
  obtain ⟨hport, heng⟩ := hover
  simp [step, turn, hc, completionDue_of_idle heng, hport]

end

/-- Settles O14, by the turn that each condition selects. -/
theorem engineTurnsAndTheEndOfARun : Obligations.EngineTurnsAndTheEndOfARun := by
  unfold Obligations.EngineTurnsAndTheEndOfARun
  refine ⟨fun s op wait hc he hend => step_of_due hc ?_, fun s hc => step_of_run_over hc⟩
  rw [completionDue_of_running he]
  rcases hend with rfl | hport
  · rfl
  · simp [hport]

/-- Settles O22: the event served is the reset input. -/
theorem resetEventAbandonsTheCommand : Obligations.ResetEventAbandonsTheCommand := by
  unfold Obligations.ResetEventAbandonsTheCommand
  exact fun s rest hc hd hp => step_of_event hc hd hp

/-! ### Refusal -/

theorem complete_ne_refused (s : State) (r : Refusal) : complete s ≠ .refused r := by
  unfold complete
  split
  · simp
  · split <;> simp

/-- A machine with a legal configuration turns without a refusal. -/
theorem turn_ne_refused (s : State) (r : Refusal) : turn s ≠ .refused r := by
  cases hd : completionDue s with
  | true =>
    rw [turn, if_pos hd]
    exact complete_ne_refused s r
  | false =>
    obtain ⟨t, ht⟩ := exists_turn_of_not_due hd
    simp [ht]

theorem step_eq_refused_iff (s : State) (r : Refusal) :
    step s = .refused r ↔ r = .illegalConfiguration ∧ ¬ configLegal s.cfg = true := by
  unfold step
  split_ifs with hc
  · simp [turn_ne_refused s r, hc]
  · simp [hc, eq_comm]

/-- Settles O20: the constraint on OUT_CAP is the defining inequality of MAXENC. -/
theorem onlyIllegalConfigurationsAreRefused : Obligations.OnlyIllegalConfigurationsAreRefused := by
  unfold Obligations.OnlyIllegalConfigurationsAreRefused
  intro s r
  rw [step_eq_refused_iff, configLegal_iff, maxEnc_le_iff]
  tauto

/-! ### A host event -/

/-- Counting a host step changes the engine's wait alone. -/
theorem tick_frame (s : State) : tick s = { s with eng := (tick s).eng } := by
  unfold tick
  split <;> rfl

theorem tick_eng_of_running {s : State} {op : Operation} {n : Nat} (he : s.eng = .busy op (n + 1)) :
    (tick s).eng = .busy op n := by
  simp only [tick, he]

/-- The CMD write of a command word, as a bus access (R19, R62). -/
theorem access_cmdWrite (c : Config) (w : Word) (s : State) (hcfg : s.cfg = c) :
    access { addr := c.base, width := .w32, dir := .write w } s = commandWrite w (respond .written s) := by
  subst hcfg
  exact access_write_word s (off := 0) (by decide) w rfl

/-- Settles O19: the event served is the access, and a CMD write runs what its word decodes to. -/
theorem stepRunsTheDecodedCommand : Obligations.StepRunsTheDecodedCommand := by
  unfold Obligations.StepRunsTheDecodedCommand
  refine ⟨fun s a rest hc hd hp => step_of_event hc hd hp,
    fun s => ⟨tick_frame s, tick_busy s, fun op n he => tick_eng_of_running he⟩, fun s w rest hc hd hp => ?_⟩
  have hstep : step s = commandWrite w (respond .written (tick { s with port := rest })) :=
    (step_of_event hc hd hp).trans (access_cmdWrite s.cfg w _ (tick_cfg _))
  have hcfg : (respond .written (tick { s with port := rest })).cfg = s.cfg := tick_cfg _
  refine ⟨fun i hi => hstep.trans (commandWrite_of_ok ?_), fun e he => hstep.trans (commandWrite_of_error (e := e) ?_)⟩
  · rw [hcfg, hi]
  · rw [hcfg, he]

/-- No word of the window depends on a running command's wait. -/
theorem readPlace_tick (p : Place) (s : State) : readPlace p (tick s) = readPlace p s := by
  cases p <;> simp [readPlace, statusWord, readInWord, inLane, readOutWord, outLane]

/-- Settles O43: the poll reads one word, and its data decides whether the line goes. -/
theorem pollReadsUntilTheDataMatches : Obligations.PollReadsUntilTheDataMatches := by
  unfold Obligations.PollReadsUntilTheDataMatches
  intro s off mask want rest hc hd hp halign v
  have hdata : readData off.toNat (tick s) = v := by rw [readData, if_pos halign, readPlace_tick]
  rw [step_of_event hc hd hp, serve, pollOnce, readAnswer, if_pos halign, hdata]
  split_ifs with hmatch
  · simp [spend, respond]
  · simp [spend, respond]

/-! ### A running command under host events -/

section
variable {s : State} {op : Operation} {n : Nat}

/-- A host event other than reset leaves a running command running, with one host step less to wait, and takes at most
one event from the port: a POLL line may stay (R62). -/
theorem step_of_running {e : Event} {rest : List Event} (hc : configLegal s.cfg = true)
    (he : s.eng = .busy op (n + 1)) (hp : s.port = e :: rest) (hne : e ≠ .reset) :
    ∃ t, step s = .next t ∧ t.eng = .busy op n ∧ t.port <:+ s.port ∧ s.port.length ≤ t.port.length + 1 := by
  have hd : completionDue s = false := by simp [completionDue_of_running he, hp]
  have hbusy : s.busy = true := (busy_eq_true_iff s).2 ⟨op, n + 1, he⟩
  have htaken (port : List Event) : (taken port s).eng = .busy op n := by rw [taken_eng, he]
  have hkept (port : List Event) (h : port = rest ∨ port = s.port) :
      port <:+ s.port ∧ s.port.length ≤ port.length + 1 := by
    rcases h with rfl | rfl
    · exact hp ▸ ⟨List.suffix_cons e port, by simp⟩
    · exact ⟨List.suffix_refl _, by omega⟩
  obtain ⟨t, ht, heff⟩ := serve_effect e rest s hd hp
  refine ⟨t, (step_of_event hc hd hp).trans ht, ?_⟩
  cases heff with
  | completed _ _ _ _ hdue => simp [hd] at hdue
  | waited hidle => simp [he] at hidle
  | reset _ _ hreset =>
    rw [hp] at hreset
    exact absurd (List.cons.inj hreset).1 hne
  | answered e' rest' port r _ _ hp' hport =>
    obtain rfl : rest = rest' := (List.cons.inj (hp.symm.trans hp')).2
    have hsuffix := hkept port hport
    exact ⟨htaken port, by simpa using hsuffix⟩
  | wrote a rest' off v _ _ hp' _ _ _ _ hw =>
    obtain rfl : rest = rest' := (List.cons.inj (hp.symm.trans hp')).2
    rw [(writeEffect_of_writePlace hw).eq_of_busy (by simpa using hbusy)]
    have hsuffix := hkept rest (.inl rfl)
    exact ⟨htaken rest, by simpa using hsuffix⟩

theorem run_succ_of_step {t : State} (k : Nat) (h : step s = .next t) : run (k + 1) s = run k t := by
  rw [run, h]

theorem run_succ_of_run {t : State} (k : Nat) (h : run k s = .next t) : run (k + 1) s = step t := by
  induction k generalizing s with
  | zero =>
    obtain rfl := Host.Outcome.next.inj h
    rw [run]
    cases step s <;> rfl
  | succ k ih =>
    rw [run] at h ⊢
    cases hs : step s with
    | next u => exact ih (by simpa only [hs] using h)
    | fault r => simp [hs] at h
    | refused r => simp [hs] at h

/-- With enough events at the port, none of them reset, a running command waits one host step less after each step
(R69). -/
theorem run_of_running (hc : configLegal s.cfg = true) (he : s.eng = .busy op n) (hlen : n ≤ s.port.length)
    (hr : Event.reset ∉ s.port) {k : Nat} (hk : k ≤ n) :
    ∃ t, run k s = .next t ∧ t.eng = .busy op (n - k) ∧ t.cfg = s.cfg := by
  induction k generalizing s n with
  | zero => exact ⟨s, rfl, he, rfl⟩
  | succ k ih =>
    obtain ⟨m, rfl⟩ := Nat.exists_eq_succ_of_ne_zero (by omega : n ≠ 0)
    obtain ⟨e, rest, hp⟩ := List.exists_cons_of_length_pos (by omega : 0 < s.port.length)
    have hne : e ≠ .reset := fun h => hr (by simp [hp, h])
    obtain ⟨u, hu, heng, hsuffix, htaken⟩ := step_of_running hc he hp hne
    have hcfg := step_cfg hu
    obtain ⟨t, ht, hteng, htcfg⟩ :=
      ih (hcfg ▸ hc) heng (by omega) (fun h => hr (hsuffix.subset h)) (by omega)
    exact ⟨t, (run_succ_of_step k hu).trans ht, by rw [hteng, Nat.succ_sub_succ], htcfg.trans hcfg⟩

end

/-- Settles O8: the wait that acceptance latches is counted down by one host event a step. -/
theorem everyLatencyIsAdmitted : Obligations.EveryLatencyIsAdmitted := by
  unfold Obligations.EveryLatencyIsAdmitted
  refine ⟨fun p hp s n hb hlen hwf => ?_, fun s op n e rest hc he hp => ?_,
    fun s op n hc he hlen hr => ⟨fun k hk => ?_, ?_⟩⟩
  · exact ⟨_, exec_accepted (s := { s with latencies := [n] }) hp hwf hb hlen, rfl⟩
  · have hd : completionDue s = false := by simp [completionDue_of_running he, hp]
    refine ⟨hd, step_of_event hc hd hp, fun hne => ?_⟩
    obtain ⟨t, ht, heng, -⟩ := step_of_running hc he hp hne
    exact ⟨t, ht, heng⟩
  · obtain ⟨t, ht, heng, -⟩ := run_of_running hc he hlen hr hk
    exact ⟨t, ht, heng⟩
  · obtain ⟨t, ht, heng, hcfg⟩ := run_of_running hc he hlen hr le_rfl
    have hdue : completionDue t = true := by simp [completionDue_of_running heng]
    exact ⟨t, ht, (run_succ_of_run n ht).trans (step_of_due (hcfg ▸ hc) hdue)⟩

/-- A due completion of a running command whose input is written shows the result (R68). -/
theorem step_holdsResult_of_due {s : State} {op : Operation} {wait : Nat} {inp : List Byte}
    (hc : configLegal s.cfg = true) (hinv : Invariant s) (he : s.eng = .busy op wait)
    (hi : inputBytes s = some inp) (hd : completionDue s = true) :
    ∃ t, step s = .next t ∧ t.holdsResult (compute op (hashOf s.cfg.hash) inp) :=
  ⟨_, (step_of_due hc hd).trans (complete_of_input he hi),
    publishResult_holdsResult (compute_resultFits hc hinv he hi) s⟩

/-- Settles O17, by induction on the wait: the completion is due, or the host's event leaves the command running on the
same input with one host step less. -/
theorem acceptedCommandFinishesWithItsResult : Obligations.AcceptedCommandFinishesWithItsResult := by
  unfold Obligations.AcceptedCommandFinishesWithItsResult
  intro s op wait inp hc hinv he hi hr
  induction wait generalizing s with
  | zero =>
    have hd : completionDue s = true := by simp [completionDue_of_running he]
    obtain ⟨t, ht, hres⟩ := step_holdsResult_of_due hc hinv he hi hd
    exact ⟨1, by omega, t, run_succ_of_step 0 ht, hres⟩
  | succ n ih =>
    cases hp : s.port with
    | nil =>
      have hd : completionDue s = true := by simp [completionDue_of_running he, hp]
      obtain ⟨t, ht, hres⟩ := step_holdsResult_of_due hc hinv he hi hd
      exact ⟨1, by omega, t, run_succ_of_step 0 ht, hres⟩
    | cons e rest =>
      have hne : e ≠ .reset := fun h => hr (by simp [hp, h])
      obtain ⟨u, hu, heng, hsuffix, -⟩ := step_of_running hc he hp hne
      have hcfg := step_cfg hu
      have hinput : inputBytes u = some inp := by
        rcases step_input_of_busy hu ((busy_eq_true_iff s).2 ⟨op, _, he⟩) with ⟨hinLen, hinBuf⟩ | ⟨rest', hreset⟩
        · rw [inputBytes, hinLen, hinBuf]
          exact hi
        · exact absurd (by simp [hreset]) hr
      obtain ⟨k, hk, t, ht, hres⟩ := ih u (hcfg ▸ hc) (stepKeepsTheInvariant s u hinv hu) heng hinput
        (fun h => hr (hsuffix.subset h))
      exact ⟨k + 1, by omega, t, (run_succ_of_step k hu).trans ht, hcfg ▸ hres⟩

end Sys2Proof.Machine
end
